-- ==== Sys2Proof/Word.lean ====
section
/-! DEFINITION. The word types of PCC: the fixed widths of 00_scope.md R6. -/

namespace Sys2Proof

/-- A byte: an item of `OUT`, a byte of `buf`, a wire byte (R6, R74). -/
abbrev Byte := BitVec 8

/-- A 32-bit register or operand (R6). -/
abbrev Word := BitVec 32

/-- A command word, `op` in bits 39:32 and `arg` in bits 31:0 (R6, R70). -/
abbrev CmdWord := BitVec 40

/-- A response word, `st` in bits 35:32 and `val` in bits 31:0 (R6, R73). -/
abbrev RespWord := BitVec 36

end Sys2Proof
end

