-- ==== Sys2Proof/Syntax.lean ====
section
/-! DEFINITION. The 20 commands of PCC (30_encoding.md R75), one constructor each, with the operand of its format (R71, R72). -/

namespace Sys2Proof

/-- A command. An operand's type is the field its format gives it: a byte for format B, a word for format W, one bit for format M. -/
inductive Instr where
  /-- `NOP` (R160). -/
  | nop
  /-- `ST.READ` (R161). -/
  | stRead
  /-- `CK.CLEAR` (R162). -/
  | ckClear
  /-- `CRC.INIT` (R92). -/
  | crcInit
  /-- `CRC.BYTE b`, `b` a message byte (R93). -/
  | crcByte (b : Byte)
  /-- `CRC.READ` (R94). -/
  | crcRead
  /-- `TY.CHECK t`, `t` four type bytes, byte 0 in bits 31:24 (R103). -/
  | tyCheck (t : Word)
  /-- `CK.NEW t`, `t` four type bytes (R111). -/
  | ckNew (t : Word)
  /-- `CK.PUSH b`, `b` a data byte (R112). -/
  | ckPush (b : Byte)
  /-- `CK.BUILD` (R113). -/
  | ckBuild
  /-- `RX.BEGIN m`, `m` the session mode (R120). -/
  | rxBegin (m : Bool)
  /-- `RX.BYTE b`, `b` a wire byte (R121). -/
  | rxByte (b : Byte)
  /-- `RX.END` (R129). -/
  | rxEnd
  /-- `CK.LEN` (R141). -/
  | ckLen
  /-- `CK.TYPE` (R142). -/
  | ckType
  /-- `CK.CRC` (R143). -/
  | ckCrc
  /-- `CK.DATA i`, `i` a buffer index (R144). -/
  | ckData (i : Word)
  /-- `CK.FLAGS` (R145). -/
  | ckFlags
  /-- `CK.EMIT` (R151). -/
  | ckEmit
  /-- `SIG.EMIT` (R152). -/
  | sigEmit
  deriving DecidableEq, Repr

end Sys2Proof
end

