-- ==== Sys2Proof/WellFormed.lean ====
section
/-! DEFINITION. Which command words are legal (30_encoding.md R71, R75, R76) and which commands are well formed. The table is the
opcode map of R75; the decoder of Decode.lean is written apart from it, so that the two can be held against each other. -/

namespace Sys2Proof

/-- The four formats of R71. -/
inductive Format where
  /-- No operand. -/
  | n
  /-- One byte, `arg[7:0]`. -/
  | b
  /-- One 32-bit word, `arg`. -/
  | w
  /-- One mode bit, `arg[0]`. -/
  | m
  deriving DecidableEq, Repr

/-- The bits of a command word that are fixed in a format: the `mask` column of R71. -/
def Format.mask : Format → CmdWord
  | .n => 0xFFFFFFFFFF#40
  | .b => 0xFFFFFFFF00#40
  | .w => 0xFF00000000#40
  | .m => 0xFFFFFFFFFE#40

/-- How many bits of `arg` a format's operand takes (R71). -/
def Format.operandBits : Format → Nat
  | .n => 0
  | .b => 8
  | .w => 32
  | .m => 1

/-- A row of the opcode map (R75). -/
structure OpcodeRow where
  mnemonic : String
  op       : Byte
  format   : Format
  deriving DecidableEq, Repr

/-- `match = {op, 0x00000000}` (R71). -/
def OpcodeRow.matchValue (r : OpcodeRow) : CmdWord := r.op ++ (0#32)

/-- A word selects a row when `cmd AND mask = match` (R71). -/
def OpcodeRow.selects (r : OpcodeRow) (w : CmdWord) : Bool := w &&& r.format.mask == r.matchValue

/-- The rows of families 0 to 3: system, CRC generator, chunk type, construction (R75). -/
def opcodeTableLow : List OpcodeRow :=
  [⟨"NOP", 0x00#8, .n⟩, ⟨"ST.READ", 0x01#8, .n⟩, ⟨"CK.CLEAR", 0x02#8, .n⟩,
   ⟨"CRC.INIT", 0x10#8, .n⟩, ⟨"CRC.BYTE", 0x11#8, .b⟩, ⟨"CRC.READ", 0x12#8, .n⟩,
   ⟨"TY.CHECK", 0x20#8, .w⟩,
   ⟨"CK.NEW", 0x30#8, .w⟩, ⟨"CK.PUSH", 0x31#8, .b⟩, ⟨"CK.BUILD", 0x32#8, .n⟩]

/-- The rows of families 4 to 6: deframer, accessors, framer (R75). -/
def opcodeTableHigh : List OpcodeRow :=
  [⟨"RX.BEGIN", 0x40#8, .m⟩, ⟨"RX.BYTE", 0x41#8, .b⟩, ⟨"RX.END", 0x42#8, .n⟩,
   ⟨"CK.LEN", 0x50#8, .n⟩, ⟨"CK.TYPE", 0x51#8, .n⟩, ⟨"CK.CRC", 0x52#8, .n⟩,
   ⟨"CK.DATA", 0x53#8, .w⟩, ⟨"CK.FLAGS", 0x54#8, .n⟩,
   ⟨"CK.EMIT", 0x60#8, .n⟩, ⟨"SIG.EMIT", 0x61#8, .n⟩]

/-- The opcode map of R75. -/
def opcodeTable : List OpcodeRow := opcodeTableLow ++ opcodeTableHigh

/-- A command word is legal when some row of the opcode map selects it (R76). -/
def CmdWord.wellFormed (w : CmdWord) : Bool := opcodeTable.any fun r => r.selects w

/-- The format of a command (R75). -/
def Instr.format : Instr → Format
  | .nop => .n
  | .stRead => .n
  | .ckClear => .n
  | .crcInit => .n
  | .crcByte _ => .b
  | .crcRead => .n
  | .tyCheck _ => .w
  | .ckNew _ => .w
  | .ckPush _ => .b
  | .ckBuild => .n
  | .rxBegin _ => .m
  | .rxByte _ => .b
  | .rxEnd => .n
  | .ckLen => .n
  | .ckType => .n
  | .ckCrc => .n
  | .ckData _ => .w
  | .ckFlags => .n
  | .ckEmit => .n
  | .sigEmit => .n

/-- The operand of a command as a number, 0 where it has none (R72). -/
def Instr.operand : Instr → Nat
  | .nop => 0
  | .stRead => 0
  | .ckClear => 0
  | .crcInit => 0
  | .crcByte b => b.toNat
  | .crcRead => 0
  | .tyCheck t => t.toNat
  | .ckNew t => t.toNat
  | .ckPush b => b.toNat
  | .ckBuild => 0
  | .rxBegin m => m.toNat
  | .rxByte b => b.toNat
  | .rxEnd => 0
  | .ckLen => 0
  | .ckType => 0
  | .ckCrc => 0
  | .ckData i => i.toNat
  | .ckFlags => 0
  | .ckEmit => 0
  | .sigEmit => 0

/-- A command is well formed when its operand fits the field its format gives it (R71). The operand types already say so, hence
every command is (`Laws.instr_wellFormed`); what can be ill formed on PCC is a command word, see `CmdWord.wellFormed`. -/
def Instr.wellFormed (i : Instr) : Bool := i.operand < 2 ^ i.format.operandBits

end Sys2Proof
end

