-- ==== Sys2Proof/Decode.lean ====
section
/-! DEFINITION. The decoder, total on all 2^40 command words (30_encoding.md R70 to R72, R75 to R77), and the encoder. -/

namespace Sys2Proof

/-- `cmd[39:32]` (R70). -/
def CmdWord.op (w : CmdWord) : Byte := w.extractLsb' 32 8

/-- `cmd[31:0]` (R70). -/
def CmdWord.arg (w : CmdWord) : Word := w.extractLsb' 0 32

/-- Why a command word is illegal (R76). -/
inductive DecodeError where
  /-- `op` is none of the 20 of R75. -/
  | unknownOpcode
  /-- `op` is one of them and a reserved bit of `arg` is 1. -/
  | reservedBitSet
  deriving DecidableEq, Repr

/-- Format N: all of `arg` is reserved (R71). -/
def decodeN (arg : Word) (i : Instr) : Except DecodeError Instr :=
  if arg = 0#32 then .ok i else .error .reservedBitSet

/-- Format B: the operand is `arg[7:0]`, `arg[31:8]` is reserved (R71, R72). -/
def decodeB (arg : Word) (mk : Byte → Instr) : Except DecodeError Instr :=
  if arg.extractLsb' 8 24 = 0#24 then .ok (mk (arg.extractLsb' 0 8)) else .error .reservedBitSet

/-- Format W: the operand is `arg` unchanged, nothing is reserved (R71, R72). -/
def decodeW (arg : Word) (mk : Word → Instr) : Except DecodeError Instr := .ok (mk arg)

/-- Format M: the operand is `arg[0]`, `arg[31:1]` is reserved (R71, R72). -/
def decodeM (arg : Word) (mk : Bool → Instr) : Except DecodeError Instr :=
  if arg.extractLsb' 1 31 = 0#31 then .ok (mk (arg.getLsbD 0)) else .error .reservedBitSet

/-- The command a word stands for, or why it is illegal (R75, R76). -/
def decode (w : CmdWord) : Except DecodeError Instr :=
  match w.op.toNat with
  | 0x00 => decodeN w.arg .nop
  | 0x01 => decodeN w.arg .stRead
  | 0x02 => decodeN w.arg .ckClear
  | 0x10 => decodeN w.arg .crcInit
  | 0x11 => decodeB w.arg .crcByte
  | 0x12 => decodeN w.arg .crcRead
  | 0x20 => decodeW w.arg .tyCheck
  | 0x30 => decodeW w.arg .ckNew
  | 0x31 => decodeB w.arg .ckPush
  | 0x32 => decodeN w.arg .ckBuild
  | 0x40 => decodeM w.arg .rxBegin
  | 0x41 => decodeB w.arg .rxByte
  | 0x42 => decodeN w.arg .rxEnd
  | 0x50 => decodeN w.arg .ckLen
  | 0x51 => decodeN w.arg .ckType
  | 0x52 => decodeN w.arg .ckCrc
  | 0x53 => decodeW w.arg .ckData
  | 0x54 => decodeN w.arg .ckFlags
  | 0x60 => decodeN w.arg .ckEmit
  | 0x61 => decodeN w.arg .sigEmit
  | _ => .error .unknownOpcode

/-- The opcode of a command (R75). -/
def Instr.opcode : Instr → Byte
  | .nop => 0x00#8
  | .stRead => 0x01#8
  | .ckClear => 0x02#8
  | .crcInit => 0x10#8
  | .crcByte _ => 0x11#8
  | .crcRead => 0x12#8
  | .tyCheck _ => 0x20#8
  | .ckNew _ => 0x30#8
  | .ckPush _ => 0x31#8
  | .ckBuild => 0x32#8
  | .rxBegin _ => 0x40#8
  | .rxByte _ => 0x41#8
  | .rxEnd => 0x42#8
  | .ckLen => 0x50#8
  | .ckType => 0x51#8
  | .ckCrc => 0x52#8
  | .ckData _ => 0x53#8
  | .ckFlags => 0x54#8
  | .ckEmit => 0x60#8
  | .sigEmit => 0x61#8

/-- The command word `{op, arg}` with the operand in the low bits of `arg` and every other bit 0 (R72, R78). -/
def encode (i : Instr) : CmdWord := i.opcode ++ BitVec.ofNat 32 i.operand

/-- The command that the decoder reads from a row's word: bit 0 of `w` is bit 0 of the command word, the bits from `nbits` up are 0,
and what does not fit in 40 bits is no command word (log entry 13). -/
def decodeTableWord (nbits w : Nat) : Option Instr :=
  if w % 2 ^ nbits < 2 ^ 40 then (decode (BitVec.ofNat 40 (w % 2 ^ nbits))).toOption else none

end Sys2Proof
end

