-- ==== Sys2Proof/Config.lean ====
section
/-! DEFINITION. What is fixed for the machine and is not state: the constants of 00_scope.md R5, R7, R8 (10_state.md R20).
There is no free value: PCC is deterministic and no unspecified value is observable (R11, 93 section 1). -/

namespace Sys2Proof

/-- The architectural capacity of `buf`, 2^32 - 1 bytes (R5). The capacity a run has is `State.bufBytes` (log entry 4). -/
def Config.bufBytesArch : Word := 0xFFFFFFFF#32

/-- `SIG[0..7]`, the stream signature (R7). -/
def Config.sig : Vector Byte 8 :=
  #v[0x89#8, 0x50#8, 0x4E#8, 0x47#8, 0x0D#8, 0x0A#8, 0x1A#8, 0x0A#8]

/-- `SIG[k]` for the 3-bit counter `k`. -/
def Config.sigByte (k : BitVec 3) : Byte := Config.sig[k.toNat]'k.isLt

/-- The CRC polynomial 0x04C11DB7 with its bits reversed (R8, R90). The spec states it, UNVERIFIED beyond that (93 G1), log entry 8. -/
def Config.crcPoly : Word := 0xEDB88320#32

/-- The CRC generator's initial value (R8). The spec states it, UNVERIFIED beyond that (93 G1), log entry 8. -/
def Config.crcInit : Word := 0xFFFFFFFF#32

/-- The CRC's final XOR (R8). The spec states it, UNVERIFIED beyond that (93 G1), log entry 8. -/
def Config.crcXorOut : Word := 0xFFFFFFFF#32

end Sys2Proof
end

