-- ==== Sys2Proof/Machine/CrcUnit.lean ====
section
/-! DEFINITION. The CRC-32 generator's functions (40_crc.md R90, R91). -/

namespace Sys2Proof.Machine

/-- One iteration of the loop of R90: a logical right shift by one, with the constant folded in when bit 0 was 1. -/
def crcShift (x : Word) : Word := if x.getLsbD 0 then (x >>> 1) ^^^ Config.crcPoly else x >>> 1

/-- `n` iterations of the loop of R90. -/
def crcShifts : Nat → Word → Word
  | 0, x => x
  | n + 1, x => crcShifts n (crcShift x)

/-- `crc_step(c, b)`: one message byte folded into the remainder (R90). -/
def crcStep (c : Word) (b : Byte) : Word := crcShifts 8 (c ^^^ b.setWidth 32)

/-- The remainder after the bytes of a message, first byte first (the loop of R91). -/
def crcFold (c : Word) (m : List Byte) : Word := m.foldl crcStep c

/-- `crc32(m)` (R91). -/
def crc32 (m : List Byte) : Word := crcFold Config.crcInit m ^^^ Config.crcXorOut

end Sys2Proof.Machine
end

