-- ==== Sys2Proof/Machine/State.lean ====
section
/-! DEFINITION. The state of PCC (10_state.md R20), its reset value (R39), and the reasons a step can stop. -/

namespace Sys2Proof.Machine

/-- The phase register `ph`, 4 bits, as its nine values (R30; 93 V4; log entry 7). -/
inductive Phase where
  /-- 0 `IDLE`: no operation in progress. -/
  | idle
  /-- 1 `ASM`: a chunk is being assembled. -/
  | asm
  /-- 2 `RX_SIG`: reading the 8 signature bytes. -/
  | rxSig
  /-- 3 `RX_LEN`: reading the 4 length bytes; with `cnt = 0` also "at a chunk boundary". -/
  | rxLen
  /-- 4 `RX_TYPE`: reading the 4 type bytes. -/
  | rxType
  /-- 5 `RX_DATA`: reading the data bytes. -/
  | rxData
  /-- 6 `RX_CRC`: reading the 4 stored-CRC bytes. -/
  | rxCrc
  /-- 7 `FAIL`: a parse failed, `err` holds the status. -/
  | fail
  /-- 8 `DEAD`: the fatal length overflow happened; left only by reset. -/
  | dead
  deriving DecidableEq, Repr

/-- The ten statuses PCC produces (60_exceptions.md R170, R172). The reserved numbers 5, 6, 12 to 15 are never produced. -/
inductive Status where
  /-- 0 `OK`. -/
  | ok
  /-- 1 `INVALID_CHUNK_TYPE`. -/
  | invalidChunkType
  /-- 2 `TRUNCATED_CHUNK`. -/
  | truncatedChunk
  /-- 3 `CRC_MISMATCH`. -/
  | crcMismatch
  /-- 4 `BAD_SIGNATURE`. -/
  | badSignature
  /-- 7 `FATAL_LENGTH`. -/
  | fatalLength
  /-- 8 `UNSUPPORTED_LENGTH`. -/
  | unsupportedLength
  /-- 9 `BAD_PHASE`. -/
  | badPhase
  /-- 10 `ILLEGAL_COMMAND`. -/
  | illegalCommand
  /-- 11 `BAD_INDEX`. -/
  | badIndex
  deriving DecidableEq, Repr

/-- What the outside world sees of one command: the bytes it put on `OUT`, all of them before its response, and the response
(R28, 20_memory.md R63 c, 30_encoding.md R73). -/
structure Reply where
  out : List Byte
  st  : Status
  val : Word
  deriving DecidableEq, Repr

/-- What the host can do to PCC: present a command word, or assert reset between two commands (R10, R200). -/
inductive HostEvent where
  /-- A 40-bit word on the command port. -/
  | command (w : CmdWord)
  /-- The reset event. -/
  | reset
  deriving DecidableEq, Repr

/-- `buf`: the bytes written so far, by rising index; an index not listed has no value (R27, 93 U1; log entry 5). -/
abbrev Memory := List Host.Cell

/-- How a command can end badly (60_exceptions.md R181 to R183). -/
inductive Ending where
  /-- `raise Refuse(st)`. -/
  | refuse (st : Status)
  /-- `raise Fail(st)`. -/
  | fail (st : Status)
  /-- `raise Fatal`. -/
  | fatal
  deriving DecidableEq, Repr

/-- The state of PCC: the tuple of R20, then the model's own fields for the parameter and the ports (log entries 1, 2, 4).
The control fields have the widths R6 and R30 to R35 give one by one, 14 bits together, where R20 says 17: DESIGN CHOICE, log entry 15. -/
structure State where
  /-- `crc_r`, the CRC generator's remainder register (R21). -/
  crc_r    : Word
  /-- `ck_type`, the slot's chunk type (R22). -/
  ck_type  : Word
  /-- `ck_len`, the slot's data length (R23). -/
  ck_len   : Word
  /-- `ck_crc`, the slot's CRC after the final XOR (R24). -/
  ck_crc   : Word
  /-- `fill`, the index the next data byte goes to (R25). -/
  fill     : Word
  /-- `buf`, the data buffer (R27). -/
  buf      : Memory
  /-- `ph`, the phase (R30). -/
  ph       : Phase
  /-- `cnt`, the byte counter of a fixed-size field (R31). -/
  cnt      : BitVec 3
  /-- `ck_v`, "slot valid" (R32). -/
  ck_v     : Bool
  /-- `ty_bad`, the latched type verdict (R33). -/
  ty_bad   : Bool
  /-- `rx_m`, the session mode (R34). -/
  rx_m     : Bool
  /-- `err`, the status number of the failure, 4 bits (R35; 93 V6; log entry 7). -/
  err      : Status
  /-- The parameter `BUF_BYTES`, 0 to 2^32 - 1, constant in a run (R5; log entry 4). -/
  bufBytes : Word
  /-- What the host has presented and PCC has not yet taken, next first (R28 (1); log entry 1). -/
  inbox    : List HostEvent
  /-- The replies given so far, oldest first (R28 (2), (3); log entry 2). -/
  replies  : List Reply
  deriving DecidableEq, Repr

/-- Why the machine stops. No run from reset reaches either (R44, R51); both are safe: they stop where the spec gives no value. -/
inductive Fault where
  /-- Raised by `memRead` and `memWrite`: an index at or above `BUF_BYTES`, where R51 does not define the access (log entry 6). Safe. -/
  | bufIndexOutOfRange
  /-- Raised by `memRead`: a byte of `buf` that nothing has written, whose value is unspecified (U1; log entry 5). Safe. -/
  | bufByteUnwritten
  deriving DecidableEq, Repr

/-- Why an instruction has no meaning. -/
inductive Refusal where
  /-- Raised by an arm of `exec` whose instruction is not modelled yet; no arm raises it. Safe. -/
  | notModelled (mnemonic : String)
  deriving DecidableEq, Repr

/-- The state after reset at power-on (R39, R201), with the architectural capacity (R5), no byte of `buf` listed (log entry 5), nothing
presented and nothing answered yet (log entries 1, 2). -/
def State.reset : State where
  crc_r    := 0xFFFFFFFF#32
  ck_type  := 0#32
  ck_len   := 0#32
  ck_crc   := 0#32
  fill     := 0#32
  buf      := []
  ph       := .idle
  cnt      := 0#3
  ck_v     := false
  ty_bad   := false
  rx_m     := false
  err      := .ok
  bufBytes := Config.bufBytesArch
  inbox    := []
  replies  := []

end Sys2Proof.Machine
end

