-- ==== Sys2Proof/Machine/Operands.lean ====
section
/-! DEFINITION. How bytes sit in 32-bit words: type words and big-endian wire fields (20_memory.md R55, R56; 30_encoding.md R72). -/

namespace Sys2Proof.Machine

/-- `t0 = t[31:24]`, byte 0 of a type word, the first on the wire (R22, R56). -/
def typeByte0 (t : Word) : Byte := t.extractLsb' 24 8

/-- `t1 = t[23:16]` (R22, R56). -/
def typeByte1 (t : Word) : Byte := t.extractLsb' 16 8

/-- `t2 = t[15:8]` (R22, R56). -/
def typeByte2 (t : Word) : Byte := t.extractLsb' 8 8

/-- `t3 = t[7:0]` (R22, R56). -/
def typeByte3 (t : Word) : Byte := t.extractLsb' 0 8

/-- The four bytes of a type word in wire order (R56). -/
def typeBytes (t : Word) : List Byte := [typeByte0 t, typeByte1 t, typeByte2 t, typeByte3 t]

/-- `emit_be32(v)`: the bytes of a 32-bit number, most significant first (R55; 00_scope.md section 6). -/
def be32 (v : Word) : List Byte :=
  [v.extractLsb' 24 8, v.extractLsb' 16 8, v.extractLsb' 8 8, v.extractLsb' 0 8]

/-- `(r << 8) OR zext_32(b)`: one byte shifted into a wire field, most significant first (R55, R62). -/
def shiftIn (r : Word) (b : Byte) : Word := (r <<< 8) ||| b.setWidth 32

end Sys2Proof.Machine
end

