-- ==== Sys2Proof/Machine/Flags.lean ====
section
/-! DEFINITION. The letter classes, the chunk-type flags and gates (41_chunk_type.md R100 to R102), the numbers of the phases and
the statuses (R30, R170), the status word (10_state.md R36) and the response word (30_encoding.md R73). -/

namespace Sys2Proof.Machine

/-- `upper(b)`: 0x41 to 0x5A (R100). The ASCII codes are the spec's, UNVERIFIED beyond it (93 G2), log entry 9. -/
def upper (b : Byte) : Bool := 0x41#8 ≤ b && b ≤ 0x5A#8

/-- `lower(b)`: 0x61 to 0x7A (R100). The ASCII codes are the spec's, UNVERIFIED beyond it (93 G2), log entry 9. -/
def lower (b : Byte) : Bool := 0x61#8 ≤ b && b ≤ 0x7A#8

/-- `alpha(b)` (R100). -/
def alpha (b : Byte) : Bool := upper b || lower b

/-- `ty_alpha(t)`, the alphabetic gate (R102). -/
def tyAlpha (t : Word) : Bool :=
  alpha (typeByte0 t) && alpha (typeByte1 t) && alpha (typeByte2 t) && alpha (typeByte3 t)

/-- `ty_valid(t)`, the full gate (R102). -/
def tyValid (t : Word) : Bool := tyAlpha t && upper (typeByte2 t)

/-- `ty_flags(t)` (R101): bit 0 critical, 1 public, 2 reserved-bit-valid, 3 safe-to-copy, 4 valid, 5 alphabetic. -/
def tyFlags (t : Word) : Word :=
  0#26 ++ BitVec.ofBool (tyAlpha t) ++ BitVec.ofBool (tyValid t) ++ BitVec.ofBool (lower (typeByte3 t)) ++
    BitVec.ofBool (upper (typeByte2 t)) ++ BitVec.ofBool (upper (typeByte1 t)) ++ BitVec.ofBool (upper (typeByte0 t))

/-- The number of a phase (R30). -/
def phaseCode : Phase → BitVec 4
  | .idle => 0#4
  | .asm => 1#4
  | .rxSig => 2#4
  | .rxLen => 3#4
  | .rxType => 4#4
  | .rxData => 5#4
  | .rxCrc => 6#4
  | .fail => 7#4
  | .dead => 8#4

/-- The number of a status (R170). -/
def statusCode : Status → BitVec 4
  | .ok => 0#4
  | .invalidChunkType => 1#4
  | .truncatedChunk => 2#4
  | .crcMismatch => 3#4
  | .badSignature => 4#4
  | .fatalLength => 7#4
  | .unsupportedLength => 8#4
  | .badPhase => 9#4
  | .illegalCommand => 10#4
  | .badIndex => 11#4

/-- `STATUS = {16'b0, err, 1'b0, cnt, 1'b0, rx_m, ty_bad, ck_v, ph}` (R36, R161). -/
def statusWord (s : State) : Word :=
  0#16 ++ statusCode s.err ++ 0#1 ++ s.cnt ++ 0#1 ++ BitVec.ofBool s.rx_m ++ BitVec.ofBool s.ty_bad ++
    BitVec.ofBool s.ck_v ++ phaseCode s.ph

/-- The 36-bit response word `{st, val}` of a reply (R73). -/
def responseWord (r : Reply) : RespWord := statusCode r.st ++ r.val

end Sys2Proof.Machine
end

