-- ==== Sys2Proof/Machine/Memory.lean ====
section
/-! DEFINITION. The data buffer as a list of (index, byte) pairs in canonical form: the one read and the one write of it
(20_memory.md R50, R51, R60). -/

namespace Sys2Proof.Machine

/-- The canonical form: indexes strictly rising. An unlisted index has no value, so no entry can equal it. -/
abbrev Memory.wf (m : Memory) : Prop := m.Pairwise fun x y => x.1 < y.1

/-- The byte at index `a`, none where nothing has written it (U1). -/
def Memory.readByte : Memory → Nat → Option Byte
  | [], _ => none
  | (k, v) :: rest, a => if k = a then some v else Memory.readByte rest a

/-- `buf[a] <- b`, keeping the canonical form. -/
def Memory.writeByte : Memory → Nat → Byte → Memory
  | [], a, b => [(a, b)]
  | (k, v) :: rest, a, b =>
    if a < k then (a, b) :: (k, v) :: rest
    else if a = k then (a, b) :: rest
    else (k, v) :: Memory.writeByte rest a b

end Sys2Proof.Machine
end

