-- ==== Sys2Proof/Machine/Ops.lean ====
section
/-! DEFINITION. The shared operations: answering, the three raises (60_exceptions.md R181 to R183), the way back to rest (R190), the
DEAD test (R180), buffer accesses (R51) and reset (R200). -/

namespace Sys2Proof.Machine

/-- What a meaning answers. -/
abbrev Result := Host.Outcome State Fault Refusal

/-- The reply of one command joins the replies given so far, its `OUT` bytes before its response (R28, R63 c). -/
def State.answer (s : State) (out : List Byte) (st : Status) (val : Word) : State :=
  { s with replies := s.replies ++ [⟨out, st, val⟩] }

/-- `respond(OK, val)` in state `s`, nothing emitted. -/
def respondOk (val : Word) (s : State) : Result := .next (s.answer [] .ok val)

/-- `emit` of the bytes `out` in order, then `respond(OK, 0)` (R150). -/
def emitOk (out : List Byte) (s : State) : Result := .next (s.answer out .ok 0#32)

/-- `raise`: how a command ends badly, the one operation all of them share. Refuse changes nothing (R181); Fail writes `ph`, `err`
and `ck_v` over what the command wrote before (R182); Fatal likewise (R183). `val` is 0 and nothing is emitted (R73, R150). -/
def raise (e : Ending) (s : State) : Result :=
  match e with
  | .refuse st => .next (s.answer [] st 0#32)
  | .fail st => .next (State.answer { s with ph := .fail, err := st, ck_v := false } [] st 0#32)
  | .fatal => .next (State.answer { s with ph := .dead, err := .fatalLength, ck_v := false } [] .fatalLength 0#32)

/-- The way out of `FAIL`, or of whatever was in progress, into phase `p`: `err`, `ty_bad`, `ck_v`, `cnt` and `fill` are cleared (R190;
R111, R120, R162). -/
def State.restart (p : Phase) (s : State) : State :=
  { s with ph := p, ck_v := false, ty_bad := false, err := .ok, cnt := 0#3, fill := 0#32 }

/-- The test every command word meets first: in `DEAD` it is answered `FATAL_LENGTH` and changes nothing (R77, R180, R185; log
entry 12). -/
def unlessDead (s : State) (k : Result) : Result := if s.ph = .dead then raise (.refuse .fatalLength) s else k

/-- The answer to an illegal command word (R76, R184), after the `DEAD` test (R77). -/
def illegalCommand (s : State) : Result := unlessDead s (raise (.refuse .illegalCommand) s)

/-- `MemRead(a, 1)` (R51). At or above `BUF_BYTES` (log entry 6), or where nothing has been written (log entry 5), it has no value. -/
def memRead (s : State) (a : Nat) : Except Fault Byte :=
  if a < s.bufBytes.toNat then
    match s.buf.readByte a with
    | some b => .ok b
    | none => .error .bufByteUnwritten
  else .error .bufIndexOutOfRange

/-- `MemRead(a, 1)` to `MemRead(a + n - 1, 1)`, in ascending order (R50). -/
def memReadRange (s : State) (a : Nat) : Nat → Except Fault (List Byte)
  | 0 => .ok []
  | n + 1 =>
    match memRead s a with
    | .error f => .error f
    | .ok b =>
      match memReadRange s (a + 1) n with
      | .error f => .error f
      | .ok bs => .ok (b :: bs)

/-- `MemWrite(a, 1, b)` (R51), defined only below `BUF_BYTES` (log entry 6). -/
def memWrite (s : State) (a : Nat) (b : Byte) : Except Fault State :=
  if a < s.bufBytes.toNat then .ok { s with buf := s.buf.writeByte a b } else .error .bufIndexOutOfRange

/-- Goes on with the value of a buffer access; an access without one stops the machine. -/
def withAccess {α : Type} (x : Except Fault α) (k : α → Result) : Result :=
  match x with
  | .ok a => k a
  | .error f => .fault f

/-- The reset event: every register takes its reset value, whatever the state before; `buf` keeps what it held, no response is given,
and `OUT` bytes and responses stay where the host has them (R200, R201). -/
def State.resetEvent (s : State) : State :=
  { State.reset with buf := s.buf, bufBytes := s.bufBytes, inbox := s.inbox, replies := s.replies }

end Sys2Proof.Machine
end

