-- ==== Sys2Proof/Machine/Accessors.lean ====
section
/-! DEFINITION. The chunk accessors `CK.LEN`, `CK.TYPE`, `CK.CRC`, `CK.DATA`, `CK.FLAGS` (44_accessors.md R140 to R145). -/

namespace Sys2Proof.Machine

/-- The test every reader of the slot makes (R140, R151): a slot that is not valid is refused. -/
def onlyIfSlotValid (s : State) (k : Result) : Result := if s.ck_v then k else raise (.refuse .badPhase) s

/-- `CK.LEN` (R141). -/
def execCkLen (s : State) : Result := unlessDead s (onlyIfSlotValid s (respondOk s.ck_len s))

/-- `CK.TYPE` (R142). -/
def execCkType (s : State) : Result := unlessDead s (onlyIfSlotValid s (respondOk s.ck_type s))

/-- `CK.CRC` (R143). -/
def execCkCrc (s : State) : Result := unlessDead s (onlyIfSlotValid s (respondOk s.ck_crc s))

/-- `CK.DATA i` (R144): the slot test, then the index test. -/
def execCkData (i : Word) (s : State) : Result :=
  unlessDead s <| onlyIfSlotValid s <|
    if s.ck_len ≤ i then raise (.refuse .badIndex) s
    else withAccess (memRead s i.toNat) fun b => respondOk (b.setWidth 32) s

/-- `CK.FLAGS` (R145). -/
def execCkFlags (s : State) : Result := unlessDead s (onlyIfSlotValid s (respondOk (tyFlags s.ck_type) s))

end Sys2Proof.Machine
end

