-- ==== Sys2Proof/Machine/ChunkType.lean ====
section
/-! DEFINITION. The chunk-type checker `TY.CHECK` (41_chunk_type.md R103). -/

namespace Sys2Proof.Machine

/-- `TY.CHECK t` (R103). -/
def execTyCheck (t : Word) (s : State) : Result := unlessDead s (respondOk (tyFlags t) s)

end Sys2Proof.Machine
end

