-- ==== Sys2Proof/Machine/Construct.lean ====
section
/-! DEFINITION. Chunk construction `CK.NEW`, `CK.PUSH`, `CK.BUILD` (42_construct.md R111 to R113). -/

namespace Sys2Proof.Machine

/-- The phase test of `CK.PUSH` and `CK.BUILD` (R112, R113). -/
def onlyInAsm (s : State) (k : Result) : Result := if s.ph = .asm then k else raise (.refuse .badPhase) s

/-- `CK.NEW t` (R111): the alphabetic gate, then the slot's type is `t` and the construction is empty. -/
def execCkNew (t : Word) (s : State) : Result :=
  unlessDead s
    (if tyAlpha t then respondOk 0#32 { s.restart .asm with ck_type := t }
     else raise (.refuse .invalidChunkType) s)

/-- `CK.PUSH b` (R112): the phase test, the full buffer, then `buf[fill] <- b`. -/
def execCkPush (b : Byte) (s : State) : Result :=
  unlessDead s <| onlyInAsm s <|
    if s.fill = s.bufBytes then raise .fatal s
    else withAccess (memWrite s s.fill.toNat b) fun s' => respondOk 0#32 { s' with fill := s.fill + 1#32 }

/-- `CK.BUILD` (R113): length from `fill`, CRC over the type bytes and `buf[0 .. fill-1]`. -/
def execCkBuild (s : State) : Result :=
  unlessDead s <| onlyInAsm s <|
    withAccess (memReadRange s 0 s.fill.toNat) fun data =>
      let c := crcFold (crcFold Config.crcInit (typeBytes s.ck_type)) data
      respondOk (c ^^^ Config.crcXorOut)
        { s with ck_len := s.fill, crc_r := c, ck_crc := c ^^^ Config.crcXorOut, ck_v := true, ph := .idle }

end Sys2Proof.Machine
end

