-- ==== Sys2Proof/Machine/Crc.lean ====
section
/-! DEFINITION. The direct CRC commands `CRC.INIT`, `CRC.BYTE`, `CRC.READ` (40_crc.md R92 to R95). -/

namespace Sys2Proof.Machine

/-- The phases in which a parse is using the generator (R95). -/
def Phase.usesGenerator (p : Phase) : Bool := p = .rxType || p = .rxData || p = .rxCrc

/-- The interlock of `CRC.INIT` and `CRC.BYTE` (R92, R93, R95). -/
def unlessGeneratorBusy (s : State) (k : Result) : Result :=
  if s.ph.usesGenerator then raise (.refuse .badPhase) s else k

/-- `CRC.INIT` (R92). -/
def execCrcInit (s : State) : Result :=
  unlessDead s (unlessGeneratorBusy s (respondOk 0#32 { s with crc_r := Config.crcInit }))

/-- `CRC.BYTE b` (R93). -/
def execCrcByte (b : Byte) (s : State) : Result :=
  unlessDead s (unlessGeneratorBusy s (respondOk 0#32 { s with crc_r := crcStep s.crc_r b }))

/-- `CRC.READ` (R94). -/
def execCrcRead (s : State) : Result := unlessDead s (respondOk (s.crc_r ^^^ Config.crcXorOut) s)

end Sys2Proof.Machine
end

