-- ==== Sys2Proof/Machine/Deframer.lean ====
section
/-! DEFINITION. The deframer `RX.BEGIN`, `RX.BYTE`, `RX.END` (43_deframer.md R120 to R129). -/

namespace Sys2Proof.Machine

/-- `RX.BEGIN m` (R120). -/
def execRxBegin (m : Bool) (s : State) : Result :=
  unlessDead s (respondOk 0#32 { s.restart (if m then .rxSig else .rxLen) with rx_m := m })

/-- `RX.BYTE b` in `RX_SIG` (R122): compare with the signature. -/
def rxSigByte (b : Byte) (s : State) : Result :=
  if b ≠ Config.sigByte s.cnt then raise (.fail .badSignature) s
  else if s.cnt = 7#3 then respondOk 0#32 { s with ph := .rxLen, cnt := 0#3 }
  else respondOk 0#32 { s with cnt := s.cnt + 1#3 }

/-- `RX.BYTE b` in `RX_LEN` (R123, R124): shift the byte into the length; at the fourth, hold it against `BUF_BYTES`. -/
def rxLenByte (b : Byte) (s : State) : Result :=
  let len := shiftIn s.ck_len b
  if s.cnt = 3#3 then
    if s.bufBytes < len then raise (.fail .unsupportedLength) { s with ck_len := len, cnt := 0#3 }
    else respondOk 0#32 { s with ck_len := len, cnt := 0#3, ph := .rxType }
  else respondOk 0#32 { s with ck_len := len, cnt := s.cnt + 1#3 }

/-- `RX.BYTE b` in `RX_TYPE` (R125): shift the byte into the type and fold it into the CRC, which starts at the first type byte; at
the fourth, latch the full gate's verdict. -/
def rxTypeByte (b : Byte) (s : State) : Result :=
  let ty := shiftIn s.ck_type b
  let crc := crcStep (if s.cnt = 0#3 then Config.crcInit else s.crc_r) b
  if s.cnt = 3#3 then
    respondOk 0#32
      { s with ck_type := ty, crc_r := crc, ty_bad := !tyValid ty, cnt := 0#3, fill := 0#32,
               ph := if s.ck_len = 0#32 then .rxCrc else .rxData }
  else respondOk 0#32 { s with ck_type := ty, crc_r := crc, cnt := s.cnt + 1#3 }

/-- `RX.BYTE b` in `RX_DATA` (R126): store the byte and fold it into the CRC. -/
def rxDataByte (b : Byte) (s : State) : Result :=
  withAccess (memWrite s s.fill.toNat b) fun s' =>
    respondOk 0#32
      { s' with crc_r := crcStep s.crc_r b, fill := s.fill + 1#32,
                ph := if s.fill + 1#32 = s.ck_len then .rxCrc else s.ph }

/-- `RX.BYTE b` in `RX_CRC` (R127, R128): shift the byte into the stored CRC; at the fourth, the verdict, type before CRC. -/
def rxCrcByte (b : Byte) (s : State) : Result :=
  let crc := shiftIn s.ck_crc b
  if s.cnt = 3#3 then
    if s.ty_bad then raise (.fail .invalidChunkType) { s with ck_crc := crc }
    else if crc ≠ s.crc_r ^^^ Config.crcXorOut then raise (.fail .crcMismatch) { s with ck_crc := crc }
    else respondOk 1#32
      { s with ck_crc := crc, ck_v := true, cnt := 0#3, ph := if s.rx_m then .rxLen else .idle }
  else respondOk 0#32 { s with ck_crc := crc, cnt := s.cnt + 1#3 }

/-- `RX.BYTE b` (R121): dispatch on the phase; an accepted byte clears `ck_v` first. -/
def execRxByte (b : Byte) (s : State) : Result :=
  match s.ph with
  | .dead => raise (.refuse .fatalLength) s
  | .idle => raise (.refuse .badPhase) s
  | .asm => raise (.refuse .badPhase) s
  | .fail => raise (.refuse s.err) s
  | .rxSig => rxSigByte b { s with ck_v := false }
  | .rxLen => rxLenByte b { s with ck_v := false }
  | .rxType => rxTypeByte b { s with ck_v := false }
  | .rxData => rxDataByte b { s with ck_v := false }
  | .rxCrc => rxCrcByte b { s with ck_v := false }

/-- `RX.END` (R129): `OK` only at a chunk boundary of a mode-1 session. -/
def execRxEnd (s : State) : Result :=
  match s.ph with
  | .dead => raise (.refuse .fatalLength) s
  | .idle => raise (.refuse .badPhase) s
  | .asm => raise (.refuse .badPhase) s
  | .fail => raise (.refuse s.err) s
  | .rxSig => raise (.fail .badSignature) s
  | .rxLen =>
    if s.cnt = 0#3 ∧ s.rx_m = true then respondOk 0#32 { s with ph := .idle }
    else raise (.fail .truncatedChunk) s
  | .rxType => raise (.fail .truncatedChunk) s
  | .rxData => raise (.fail .truncatedChunk) s
  | .rxCrc => raise (.fail .truncatedChunk) s

end Sys2Proof.Machine
end

