-- ==== Sys2Proof/Machine/Framer.lean ====
section
/-! DEFINITION. The framer `CK.EMIT`, `SIG.EMIT` (45_framer.md R150 to R152). -/

namespace Sys2Proof.Machine

/-- `CK.EMIT` (R151): length, type, data, CRC, from the stored fields. -/
def execCkEmit (s : State) : Result :=
  unlessDead s <| onlyIfSlotValid s <|
    withAccess (memReadRange s 0 s.ck_len.toNat) fun data =>
      emitOk (be32 s.ck_len ++ typeBytes s.ck_type ++ data ++ be32 s.ck_crc) s

/-- `SIG.EMIT` (R152). -/
def execSigEmit (s : State) : Result := unlessDead s (emitOk Config.sig.toList s)

end Sys2Proof.Machine
end

