-- ==== Sys2Proof/Machine/System.lean ====
section
/-! DEFINITION. The system commands `NOP`, `ST.READ`, `CK.CLEAR` (46_system.md R160 to R162). -/

namespace Sys2Proof.Machine

/-- `NOP` (R160). -/
def execNop (s : State) : Result := unlessDead s (respondOk 0#32 s)

/-- `ST.READ` (R161). -/
def execStRead (s : State) : Result := unlessDead s (respondOk (statusWord s) s)

/-- `CK.CLEAR` (R162). -/
def execCkClear (s : State) : Result := unlessDead s (respondOk 0#32 (s.restart .idle))

end Sys2Proof.Machine
end

