-- ==== Sys2Proof/Machine/Dispatch.lean ====
section
/-! DEFINITION. The meaning of each command: one arm per row of 30_encoding.md R75, one direct call each. -/

namespace Sys2Proof.Machine

def exec (i : Instr) (s : State) : Host.Outcome State Fault Refusal :=
  match i with
  | .nop => Sys2Proof.Machine.execNop s
  | .stRead => Sys2Proof.Machine.execStRead s
  | .ckClear => Sys2Proof.Machine.execCkClear s
  | .crcInit => Sys2Proof.Machine.execCrcInit s
  | .crcByte b => Sys2Proof.Machine.execCrcByte b s
  | .crcRead => Sys2Proof.Machine.execCrcRead s
  | .tyCheck t => Sys2Proof.Machine.execTyCheck t s
  | .ckNew t => Sys2Proof.Machine.execCkNew t s
  | .ckPush b => Sys2Proof.Machine.execCkPush b s
  | .ckBuild => Sys2Proof.Machine.execCkBuild s
  | .rxBegin m => Sys2Proof.Machine.execRxBegin m s
  | .rxByte b => Sys2Proof.Machine.execRxByte b s
  | .rxEnd => Sys2Proof.Machine.execRxEnd s
  | .ckLen => Sys2Proof.Machine.execCkLen s
  | .ckType => Sys2Proof.Machine.execCkType s
  | .ckCrc => Sys2Proof.Machine.execCkCrc s
  | .ckData k => Sys2Proof.Machine.execCkData k s
  | .ckFlags => Sys2Proof.Machine.execCkFlags s
  | .ckEmit => Sys2Proof.Machine.execCkEmit s
  | .sigEmit => Sys2Proof.Machine.execSigEmit s

end Sys2Proof.Machine
end

