-- ==== Sys2Proof/Machine/Step.lean ====
section
/-! DEFINITION. One step: take the next thing the host has presented (00_scope.md R9, R10; 70_reset_and_hazards.md R200). -/

namespace Sys2Proof.Machine

/-- One step (R9, R28, R77). A presented command word is decoded and performed whole; an illegal one is answered (R76); a reset event
resets; with nothing presented nothing happens (log entry 3). -/
def step (s : State) : Host.Outcome State Fault Refusal :=
  match s.inbox with
  | [] => .next s
  | .reset :: rest => .next (State.resetEvent { s with inbox := rest })
  | .command w :: rest =>
    match decode w with
    | .ok i => exec i { s with inbox := rest }
    | .error _ => illegalCommand { s with inbox := rest }

/-- `s` with the instruction of a table row presented as the next command (log entry 14): the bits of `w` from `nbits` up are 0. -/
def State.withFetchWord (s : State) (nbits w : Nat) : State :=
  { s with inbox := .command (BitVec.ofNat 40 (w % 2 ^ nbits)) :: s.inbox }

end Sys2Proof.Machine
end

