-- ==== Sys2Proof/Safety.lean ====
section
/-! DEFINITION. What claims are stated in: runs, the chunk in the slot, the invariants of 10_state.md R40 to R43, the register matrix of
R26, the phase table of R131, and the whole-input parse of R132. Nothing here is part of the machine. -/

namespace Sys2Proof.Machine

/-! ### Runs -/

/-- The commands of a list performed one after the other. -/
def execAll : List Instr → State → Result
  | [], s => .next s
  | i :: is, s =>
    match exec i s with
    | .next t => execAll is t
    | .fault f => .fault f
    | .refused r => .refused r

/-- The states a machine of any capacity can reach from reset, whatever the host presents and whenever it asserts reset (R10). -/
inductive Reachable : State → Prop where
  | reset (cap : Word) : Reachable { State.reset with bufBytes := cap }
  | present (s : State) (e : HostEvent) : Reachable s → Reachable { s with inbox := s.inbox ++ [e] }
  | step (s t : State) : Reachable s → step s = .next t → Reachable t

/-- The bytes on `OUT` so far (R28 (3), R63 c). -/
def State.outStream (s : State) : List Byte := s.replies.flatMap Reply.out

/-! ### The slot -/

/-- Every one of `buf[0 .. n-1]` has been written. -/
def State.written (s : State) (n : Nat) : Prop := ∀ a < n, (s.buf.readByte a).isSome

/-- The bytes `buf[0 .. n-1]`, those of them that have been written. -/
def State.bytes (s : State) (n : Nat) : List Byte := (List.range n).filterMap s.buf.readByte

/-- `buf[0 .. d.length - 1]` are the bytes `d`. -/
def State.holds (s : State) (d : List Byte) : Prop := ∀ a < d.length, s.buf.readByte a = d[a]?

/-- A chunk: what the document calls `length`, `chunk_type`, `data`, `crc`. -/
structure Chunk where
  len  : Word
  type : Word
  data : List Byte
  crc  : Word
  deriving DecidableEq, Repr

/-- The chunk in the slot (R22 to R24, R27). -/
def State.slot (s : State) : Chunk := ⟨s.ck_len, s.ck_type, s.bytes s.ck_len.toNat, s.ck_crc⟩

/-- The wire form of a chunk (R52). -/
def Chunk.wire (c : Chunk) : List Byte := be32 c.len ++ typeBytes c.type ++ c.data ++ be32 c.crc

/-- The chunk of a type and data, its length and CRC derived (R54, R110). -/
def Chunk.make (t : Word) (d : List Byte) : Chunk :=
  ⟨BitVec.ofNat 32 d.length, t, d, crc32 (typeBytes t ++ d)⟩

/-! ### The invariants -/

/-- The invariants of R40 to R43, with what a run keeps about the running CRC, the latched type verdict and the written part of `buf`,
which makes them inductive. -/
structure State.Inv (s : State) : Prop where
  /-- The buffer is in canonical form. -/
  memWf       : s.buf.wf
  /-- R40. -/
  cntLeThree  : s.ph ≠ .rxSig → s.ph ≠ .fail → s.ph ≠ .dead → s.cnt ≤ 3#3
  /-- R40. -/
  cntZero     : s.ph = .idle ∨ s.ph = .asm ∨ s.ph = .rxData → s.cnt = 0#3
  /-- R42. -/
  fillLe      : s.fill ≤ s.bufBytes
  /-- R44: what `fill` counts has been written. -/
  fillWritten : s.written s.fill.toNat
  /-- R122: the signature is read in mode 1 only. -/
  sigMode     : s.ph = .rxSig → s.rx_m = true
  /-- R41 a. -/
  slotPlace   : s.ck_v = true → s.ph = .idle ∨ (s.ph = .rxLen ∧ s.cnt = 0#3 ∧ s.rx_m = true)
  /-- R41 b. -/
  slotFill    : s.ck_v = true → s.fill = s.ck_len
  /-- R41 d. -/
  slotCrc     : s.ck_v = true → s.ck_crc = crc32 (typeBytes s.ck_type ++ s.bytes s.fill.toNat)
  /-- R41 e. -/
  slotAlpha   : s.ck_v = true → tyAlpha s.ck_type = true
  /-- R42. -/
  asmAlpha    : s.ph = .asm → tyAlpha s.ck_type = true
  /-- R42. -/
  lenLe       : s.ph = .rxType ∨ s.ph = .rxData ∨ s.ph = .rxCrc → s.ck_len ≤ s.bufBytes
  /-- R42. -/
  dataRoom    : s.ph = .rxData → s.fill < s.ck_len
  /-- R126: `RX_CRC` is entered with all the data in. -/
  dataDone    : s.ph = .rxCrc → s.fill = s.ck_len
  /-- R33: the verdict latched at the fourth type byte. -/
  tyLatched   : s.ph = .rxData ∨ s.ph = .rxCrc → s.ty_bad = !tyValid s.ck_type
  /-- R125: the remainder of the type bytes taken so far. -/
  crcOfType   : s.ph = .rxType → s.cnt ≠ 0#3 →
                  s.crc_r = crcFold Config.crcInit ((typeBytes s.ck_type).drop (4 - s.cnt.toNat))
  /-- R95, R126: the remainder of the type and the data taken so far. -/
  crcOfData   : s.ph = .rxData ∨ s.ph = .rxCrc →
                  s.crc_r = crcFold Config.crcInit (typeBytes s.ck_type ++ s.bytes s.fill.toNat)
  /-- R43. -/
  errOk       : s.ph ≠ .fail → s.ph ≠ .dead → s.err = .ok
  /-- R43. -/
  errFail     : s.ph = .fail →
                  s.err ∈ [Status.invalidChunkType, .truncatedChunk, .crcMismatch, .badSignature, .unsupportedLength]
  /-- R43. -/
  errDead     : s.ph = .dead → s.err = .fatalLength

/-- Two states that differ only in what `buf` holds from `fill` up (93 U1). -/
def State.agreeBelowFill (s t : State) : Prop :=
  t = { s with buf := t.buf } ∧ ∀ a < s.fill.toNat, t.buf.readByte a = s.buf.readByte a

/-! ### The register matrix of R26 -/

/-- The registers of R20, `buf` among them. -/
inductive Reg where
  | crc_r | ck_type | ck_len | ck_crc | fill | buf | ph | cnt | ck_v | ty_bad | rx_m | err
  deriving DecidableEq, Repr

/-- A register holds the same in two states. -/
def Reg.sameIn (r : Reg) (s t : State) : Prop :=
  match r with
  | .crc_r => t.crc_r = s.crc_r
  | .ck_type => t.ck_type = s.ck_type
  | .ck_len => t.ck_len = s.ck_len
  | .ck_crc => t.ck_crc = s.ck_crc
  | .fill => t.fill = s.fill
  | .buf => t.buf = s.buf
  | .ph => t.ph = s.ph
  | .cnt => t.cnt = s.cnt
  | .ck_v => t.ck_v = s.ck_v
  | .ty_bad => t.ty_bad = s.ty_bad
  | .rx_m => t.rx_m = s.rx_m
  | .err => t.err = s.err

/-- The "writes" column of R26. -/
def registersWritten : Instr → List Reg
  | .nop => []
  | .stRead => []
  | .ckClear => [.ph, .ck_v, .ty_bad, .err, .cnt, .fill]
  | .crcInit => [.crc_r]
  | .crcByte _ => [.crc_r]
  | .crcRead => []
  | .tyCheck _ => []
  | .ckNew _ => [.ck_type, .fill, .ck_v, .ty_bad, .err, .cnt, .ph]
  | .ckPush _ => [.buf, .fill, .ph, .err, .ck_v]
  | .ckBuild => [.ck_len, .crc_r, .ck_crc, .ck_v, .ph]
  | .rxBegin _ => [.rx_m, .ck_v, .ty_bad, .err, .cnt, .fill, .ph]
  | .rxByte _ => [.ck_v, .cnt, .ph, .ck_len, .ck_type, .ck_crc, .crc_r, .fill, .ty_bad, .buf, .err]
  | .rxEnd => [.ph, .err, .ck_v]
  | .ckLen => []
  | .ckType => []
  | .ckCrc => []
  | .ckData _ => []
  | .ckFlags => []
  | .ckEmit => []
  | .sigEmit => []

/-! ### The phase table of R131 -/

/-- The row of R131 for `RX.BYTE b`: the phase, the counter and the response after it. -/
def rxByteRow (s : State) (b : Byte) : Phase × BitVec 3 × Status × Word :=
  match s.ph with
  | .idle => (.idle, s.cnt, .badPhase, 0#32)
  | .asm => (.asm, s.cnt, .badPhase, 0#32)
  | .rxSig =>
    if b = Config.sigByte s.cnt then
      if s.cnt < 7#3 then (.rxSig, s.cnt + 1#3, .ok, 0#32) else (.rxLen, 0#3, .ok, 0#32)
    else (.fail, s.cnt, .badSignature, 0#32)
  | .rxLen =>
    if s.cnt < 3#3 then (.rxLen, s.cnt + 1#3, .ok, 0#32)
    else if shiftIn s.ck_len b ≤ s.bufBytes then (.rxType, 0#3, .ok, 0#32)
    else (.fail, 0#3, .unsupportedLength, 0#32)
  | .rxType =>
    if s.cnt < 3#3 then (.rxType, s.cnt + 1#3, .ok, 0#32)
    else if s.ck_len ≠ 0#32 then (.rxData, 0#3, .ok, 0#32)
    else (.rxCrc, 0#3, .ok, 0#32)
  | .rxData =>
    if s.fill.toNat + 1 < s.ck_len.toNat then (.rxData, 0#3, .ok, 0#32) else (.rxCrc, 0#3, .ok, 0#32)
  | .rxCrc =>
    if s.cnt < 3#3 then (.rxCrc, s.cnt + 1#3, .ok, 0#32)
    else if s.ty_bad then (.fail, 3#3, .invalidChunkType, 0#32)
    else if shiftIn s.ck_crc b ≠ s.crc_r ^^^ Config.crcXorOut then (.fail, 3#3, .crcMismatch, 0#32)
    else if s.rx_m then (.rxLen, 0#3, .ok, 1#32)
    else (.idle, 0#3, .ok, 1#32)
  | .fail => (.fail, s.cnt, s.err, 0#32)
  | .dead => (.dead, s.cnt, .fatalLength, 0#32)

/-- The row of R131 for `RX.END`. -/
def rxEndRow (s : State) : Phase × BitVec 3 × Status × Word :=
  match s.ph with
  | .idle => (.idle, s.cnt, .badPhase, 0#32)
  | .asm => (.asm, s.cnt, .badPhase, 0#32)
  | .rxSig => (.fail, s.cnt, .badSignature, 0#32)
  | .rxLen => if s.cnt = 0#3 ∧ s.rx_m = true then (.idle, 0#3, .ok, 0#32) else (.fail, s.cnt, .truncatedChunk, 0#32)
  | .rxType => (.fail, s.cnt, .truncatedChunk, 0#32)
  | .rxData => (.fail, s.cnt, .truncatedChunk, 0#32)
  | .rxCrc => (.fail, s.cnt, .truncatedChunk, 0#32)
  | .fail => (.fail, s.cnt, s.err, 0#32)
  | .dead => (.dead, s.cnt, .fatalLength, 0#32)

/-- The row of R131 for a legal command outside `DEAD`: the phase and the counter after it, and the response where the table gives one
(`newCrc` is `ck_crc` after the command, the value `CK.BUILD` answers). A command the table does not list for a phase leaves both
unchanged. -/
def phaseRow (s : State) (newCrc : Word) : Instr → Phase × BitVec 3 × Option (Status × Word)
  | .ckNew t =>
    if tyAlpha t then (.asm, 0#3, some (.ok, 0#32)) else (s.ph, s.cnt, some (.invalidChunkType, 0#32))
  | .ckClear => (.idle, 0#3, some (.ok, 0#32))
  | .rxBegin m => (if m then .rxSig else .rxLen, 0#3, some (.ok, 0#32))
  | .ckPush _ =>
    if s.ph = .asm then
      if s.fill < s.bufBytes then (.asm, 0#3, some (.ok, 0#32)) else (.dead, 0#3, some (.fatalLength, 0#32))
    else (s.ph, s.cnt, some (.badPhase, 0#32))
  | .ckBuild =>
    if s.ph = .asm then (.idle, 0#3, some (.ok, newCrc)) else (s.ph, s.cnt, some (.badPhase, 0#32))
  | .rxByte b => ((rxByteRow s b).1, (rxByteRow s b).2.1, some (rxByteRow s b).2.2)
  | .rxEnd => ((rxEndRow s).1, (rxEndRow s).2.1, some (rxEndRow s).2.2)
  | .crcInit =>
    if s.ph = .rxType ∨ s.ph = .rxData ∨ s.ph = .rxCrc then (s.ph, s.cnt, some (.badPhase, 0#32)) else (s.ph, s.cnt, none)
  | .crcByte _ =>
    if s.ph = .rxType ∨ s.ph = .rxData ∨ s.ph = .rxCrc then (s.ph, s.cnt, some (.badPhase, 0#32)) else (s.ph, s.cnt, none)
  | .nop => (s.ph, s.cnt, none)
  | .stRead => (s.ph, s.cnt, none)
  | .crcRead => (s.ph, s.cnt, none)
  | .tyCheck _ => (s.ph, s.cnt, none)
  | .ckLen => (s.ph, s.cnt, none)
  | .ckType => (s.ph, s.cnt, none)
  | .ckCrc => (s.ph, s.cnt, none)
  | .ckData _ => (s.ph, s.cnt, none)
  | .ckFlags => (s.ph, s.cnt, none)
  | .ckEmit => (s.ph, s.cnt, none)
  | .sigEmit => (s.ph, s.cnt, none)

/-! ### The parse of a whole input (R132) -/

/-- The 32-bit number of the four bytes of `w` from position `k`, most significant first (R55). -/
def wordAt (w : List Byte) (k : Nat) : Word := ((w.drop k).take 4).foldl shiftIn 0#32

/-- What `parse_chunk` gives: a status, or a chunk and the rest of the input. -/
inductive ParseResult where
  | bad (st : Status)
  | chunk (c : Chunk) (rest : List Byte)
  deriving DecidableEq, Repr

/-- `parse_chunk(w)` of R132, for a buffer of `cap` bytes. -/
def parseChunk (cap : Word) (w : List Byte) : ParseResult :=
  if w.length < 4 then .bad .truncatedChunk
  else
    let len := wordAt w 0
    if cap < len then .bad .unsupportedLength
    else if w.length < 12 + len.toNat then .bad .truncatedChunk
    else
      let t := wordAt w 4
      let d := (w.drop 8).take len.toNat
      let c := wordAt w (8 + len.toNat)
      if !tyValid t then .bad .invalidChunkType
      else if c ≠ crc32 (typeBytes t ++ d) then .bad .crcMismatch
      else .chunk ⟨len, t, d, c⟩ (w.drop (12 + len.toNat))

/-- `parse_chunk` applied again and again until the rest is empty (R132 b): the chunks in order, and the status it ends with. A chunk
takes at least 12 bytes, so `n` at least the length of the input is fuel enough. -/
def parseChunks (cap : Word) : Nat → List Byte → List Chunk × Status
  | _, [] => ([], .ok)
  | 0, _ :: _ => ([], .truncatedChunk)
  | n + 1, b :: w =>
    match parseChunk cap (b :: w) with
    | .bad st => ([], st)
    | .chunk c rest => (c :: (parseChunks cap n rest).1, (parseChunks cap n rest).2)

/-- The parse of a whole stream (R132 b): the signature, then chunk after chunk. -/
def parseStream (cap : Word) (w : List Byte) : List Chunk × Status :=
  if w.take 8 = Config.sig.toList then parseChunks cap w.length (w.drop 8) else ([], .badSignature)

/-- The chunks of a session fed the bytes `w` from state `s`: the slots at the `(OK, 1)` responses, in order (R130, R132 b). -/
def slotsSeen : List Byte → State → List Chunk
  | [], _ => []
  | b :: w, s =>
    match exec (.rxByte b) s with
    | .next t => if t.replies.getLast? = some ⟨[], .ok, 1#32⟩ then t.slot :: slotsSeen w t else slotsSeen w t
    | .fault _ => []
    | .refused _ => []

end Sys2Proof.Machine
end

