-- ==== Sys2Proof/Certificates/Slice0/Obligations.lean ====
section
/-! DEFINITION. The statements for the provers, in the order of OBLIGATIONS.json. Numbers of the spec are written out where a rule gives
them, so that a statement can be held against its rule and not only against the model. -/

open Sys2Proof Sys2Proof.Machine

/-! ### Encoding -/

/-- O1. R75: the 20 command words, each with its operand anywhere in its range, and every other opcode illegal. -/
def Obligations.CommandWordsDecodeAsListed : Prop :=
  (decode (0x00#8 ++ 0#32) = .ok .nop ∧ decode (0x01#8 ++ 0#32) = .ok .stRead ∧ decode (0x02#8 ++ 0#32) = .ok .ckClear) ∧
  (decode (0x10#8 ++ 0#32) = .ok .crcInit ∧ (∀ b : Byte, decode (0x11#8 ++ 0#24 ++ b) = .ok (.crcByte b)) ∧
    decode (0x12#8 ++ 0#32) = .ok .crcRead) ∧
  (∀ t : Word, decode (0x20#8 ++ t) = .ok (.tyCheck t)) ∧
  ((∀ t : Word, decode (0x30#8 ++ t) = .ok (.ckNew t)) ∧ (∀ b : Byte, decode (0x31#8 ++ 0#24 ++ b) = .ok (.ckPush b)) ∧
    decode (0x32#8 ++ 0#32) = .ok .ckBuild) ∧
  ((∀ m : Bool, decode (0x40#8 ++ 0#31 ++ BitVec.ofBool m) = .ok (.rxBegin m)) ∧
    (∀ b : Byte, decode (0x41#8 ++ 0#24 ++ b) = .ok (.rxByte b)) ∧ decode (0x42#8 ++ 0#32) = .ok .rxEnd) ∧
  (decode (0x50#8 ++ 0#32) = .ok .ckLen ∧ decode (0x51#8 ++ 0#32) = .ok .ckType ∧ decode (0x52#8 ++ 0#32) = .ok .ckCrc ∧
    (∀ k : Word, decode (0x53#8 ++ k) = .ok (.ckData k)) ∧ decode (0x54#8 ++ 0#32) = .ok .ckFlags) ∧
  (decode (0x60#8 ++ 0#32) = .ok .ckEmit ∧ decode (0x61#8 ++ 0#32) = .ok .sigEmit) ∧
  (∀ w : CmdWord,
    (w >>> 32).toNat ∉ [0x00, 0x01, 0x02, 0x10, 0x11, 0x12, 0x20, 0x30, 0x31, 0x32, 0x40, 0x41, 0x42, 0x50, 0x51, 0x52,
      0x53, 0x54, 0x60, 0x61] → decode w = .error .unknownOpcode)

/-- O2. R76: a word decodes exactly when some row of the opcode map has `cmd AND mask = match`. -/
def Obligations.LegalWordsAreTheTableRows : Prop :=
  ∀ w : CmdWord, (∃ i, decode w = .ok i) ↔ ∃ r ∈ opcodeTable, w &&& r.format.mask = r.op ++ 0#32

/-- O3. Decoding an encoded command gives it back, every operand at every value. -/
def Obligations.DecodeInvertsEncode : Prop := ∀ i : Instr, i.wellFormed = true → decode (encode i) = .ok i

/-- O4. Each legal word has one meaning, and it is the word of that meaning: no two words decode alike. -/
def Obligations.EncodeInvertsDecode : Prop := ∀ (w : CmdWord) (i : Instr), decode w = .ok i → encode i = w

/-- O5. The four encodings that R79 writes out. -/
def Obligations.ExampleWordsDecode : Prop :=
  decode 0x3072755374#40 = .ok (.ckNew 0x72755374#32) ∧ decode 0x4100000089#40 = .ok (.rxByte 0x89#8) ∧
  decode 0x4000000001#40 = .ok (.rxBegin true) ∧ decode 0x5300000004#40 = .ok (.ckData 4#32)

/-! ### The step -/

/-- O6. A presented word that decodes to `i` is taken from the port and performed as `i`. The port as a list of pending host events is
the model's own (log entry 1). -/
def Obligations.StepRunsTheDecodedCommand : Prop :=
  ∀ (s : State) (w : CmdWord) (rest : List HostEvent) (i : Instr),
    s.inbox = .command w :: rest → decode w = .ok i → step s = exec i { s with inbox := rest }

/-- O7. R184: an illegal word outside `DEAD` is answered `ILLEGAL_COMMAND` and changes nothing: a construction, a session and `FAIL` stay
as they were. -/
def Obligations.IllegalWordIsRefused : Prop :=
  ∀ (s : State) (w : CmdWord) (rest : List HostEvent) (e : DecodeError),
    s.inbox = .command w :: rest → s.ph ≠ .dead → decode w = .error e →
    step s = .next { s with inbox := rest, replies := s.replies ++ [⟨[], .illegalCommand, 0#32⟩] }

/-- O8. R180: in `DEAD` every command word, legal or not, is answered `FATAL_LENGTH`, changes no state and emits nothing. -/
def Obligations.DeadAnswersEveryWord : Prop :=
  ∀ (s : State) (w : CmdWord) (rest : List HostEvent),
    s.inbox = .command w :: rest → s.ph = .dead →
    step s = .next { s with inbox := rest, replies := s.replies ++ [⟨[], .fatalLength, 0#32⟩] }

/-- O9. R39: the state after reset. That the unspecified bytes of `buf` have no value is the model's choice (log entry 5). -/
def Obligations.ResetStateValues : Prop :=
  State.reset.crc_r = 0xFFFFFFFF#32 ∧ State.reset.ck_type = 0#32 ∧ State.reset.ck_len = 0#32 ∧ State.reset.ck_crc = 0#32 ∧
  State.reset.fill = 0#32 ∧ State.reset.ph = .idle ∧ State.reset.cnt = 0#3 ∧ State.reset.ck_v = false ∧
  State.reset.ty_bad = false ∧ State.reset.rx_m = false ∧ State.reset.err = .ok ∧
  (∀ a, State.reset.buf.readByte a = none) ∧
  exec .crcRead State.reset = .next (State.reset.answer [] .ok 0#32)

/-- O10. R200, R201: the reset event, from any state, `DEAD` among them: every register takes its reset value, `buf` keeps what it held,
there is no response and nothing is emitted. -/
def Obligations.ResetEventFromAnyState : Prop :=
  ∀ (s : State) (rest : List HostEvent), s.inbox = .reset :: rest →
    ∃ t, step s = .next t ∧
      t.crc_r = 0xFFFFFFFF#32 ∧ t.ck_type = 0#32 ∧ t.ck_len = 0#32 ∧ t.ck_crc = 0#32 ∧ t.fill = 0#32 ∧ t.ph = .idle ∧ t.cnt = 0#3 ∧
      t.ck_v = false ∧ t.ty_bad = false ∧ t.rx_m = false ∧ t.err = .ok ∧ statusWord t = 0#32 ∧
      (∀ a, t.buf.readByte a = s.buf.readByte a) ∧ t.bufBytes = s.bufBytes ∧ t.replies = s.replies ∧ t.inbox = rest

/-- O11. R73: every command that is taken gets exactly one response; a response that is not `OK` has `val = 0` (and no `OUT` byte, R150);
the response word is `{st, val}`. -/
def Obligations.EveryCommandAnswersOnce : Prop :=
  (∀ (s t : State) (w : CmdWord) (rest : List HostEvent), s.inbox = .command w :: rest → step s = .next t →
    t.inbox = rest ∧ ∃ r : Reply, t.replies = s.replies ++ [r] ∧ (r.st ≠ .ok → r.val = 0#32 ∧ r.out = [])) ∧
  (∀ r : Reply, (responseWord r).extractLsb' 32 4 = statusCode r.st ∧ (responseWord r).extractLsb' 0 32 = r.val)

/-- O12. R150: `CK.EMIT` that answers `OK` emits `12 + ck_len` bytes, `SIG.EMIT` eight, and no other command emits any; a command that
does not answer `OK` emits nothing; emission changes no state. -/
def Obligations.OnlyTheFramerEmits : Prop :=
  ∀ (s t : State) (i : Instr) (r : Reply), exec i s = .next t → t.replies = s.replies ++ [r] →
    (i ≠ .ckEmit → i ≠ .sigEmit → r.out = []) ∧
    (i = .ckEmit → r.st = .ok → r.out.length = 12 + s.ck_len.toNat ∧ t = { s with replies := t.replies }) ∧
    (i = .sigEmit → r.st = .ok → r.out.length = 8 ∧ t = { s with replies := t.replies }) ∧
    (r.st ≠ .ok → r.out = [])

/-! ### The CRC generator -/

/-- O13. R90: `crc_step` is the eight-iteration loop, and equals the table form; the table entries and the worked example of R90. -/
def Obligations.CrcStepIsTheLoopOfR90 : Prop :=
  (∀ (c : Word) (b : Byte), ∃ x : Nat → Word,
    x 0 = c ^^^ b.setWidth 32 ∧
    (∀ k < 8, x (k + 1) = if (x k).getLsbD 0 then (x k >>> 1) ^^^ 0xEDB88320#32 else x k >>> 1) ∧
    crcStep c b = x 8) ∧
  (∀ (c : Word) (b : Byte), crcStep c b = crcStep 0#32 ((c ^^^ b.setWidth 32).extractLsb' 0 8) ^^^ (c >>> 8)) ∧
  ([0#8, 1#8, 2#8, 3#8, 4#8, 8#8, 16#8, 32#8, 64#8, 128#8, 255#8].map (crcStep 0#32) =
    [0x00000000#32, 0x77073096#32, 0xEE0E612C#32, 0x990951BA#32, 0x076DC419#32, 0x0EDB8832#32, 0x1DB71064#32, 0x3B6E20C8#32,
     0x76DC4190#32, 0xEDB88320#32, 0x2D02EF8D#32]) ∧
  ([1, 2, 3, 4, 5, 6, 7, 8].map (fun k => crcShifts k (0xFFFFFFFF#32 ^^^ 0x61#32)) =
    [0x7FFFFFCF#32, 0xD2477CC7#32, 0x849B3D43#32, 0xAFF51D81#32, 0xBA420DE0#32, 0x5D2106F0#32, 0x2E908378#32, 0x174841BC#32])

/-- O14. Values that R8, R90 and R91 write out. -/
def Obligations.CrcKnownValues : Prop :=
  crc32 [] = 0x00000000#32 ∧
  crc32 [0x31#8, 0x32#8, 0x33#8, 0x34#8, 0x35#8, 0x36#8, 0x37#8, 0x38#8, 0x39#8] = 0xCBF43926#32 ∧
  crcStep 0#32 1#8 = 0x77073096#32 ∧ crcStep 0#32 128#8 = 0xEDB88320#32 ∧ crcStep 0#32 255#8 = 0x2D02EF8D#32 ∧
  crcStep 0xFFFFFFFF#32 0x61#8 = 0x174841BC#32

/-- O15. R96: two messages of one length that differ in exactly one bit have different CRCs. -/
def Obligations.CrcDetectsOneFlippedBit : Prop :=
  ∀ (p q : List Byte) (b : Byte) (k : Nat), k < 8 → crc32 (p ++ (b ^^^ (1#8 <<< k)) :: q) ≠ crc32 (p ++ b :: q)

/-- O16. R92, R93, R94: the three direct commands, refused where R95 interlocks them. -/
def Obligations.DirectCrcCommands : Prop :=
  (decode 0x1000000000#40 = .ok .crcInit ∧ (∀ b : Byte, decode (0x11#8 ++ 0#24 ++ b) = .ok (.crcByte b)) ∧
    (∀ (a : BitVec 24) (b : Byte), a ≠ 0#24 → decode (0x11#8 ++ a ++ b) = .error .reservedBitSet) ∧
    decode 0x1200000000#40 = .ok .crcRead) ∧
  ∀ s : State, s.ph ≠ .dead →
    (s.ph = .rxType ∨ s.ph = .rxData ∨ s.ph = .rxCrc →
      exec .crcInit s = .next (s.answer [] .badPhase 0#32) ∧ ∀ b, exec (.crcByte b) s = .next (s.answer [] .badPhase 0#32)) ∧
    (¬(s.ph = .rxType ∨ s.ph = .rxData ∨ s.ph = .rxCrc) →
      exec .crcInit s = .next (State.answer { s with crc_r := 0xFFFFFFFF#32 } [] .ok 0#32) ∧
      ∀ b, exec (.crcByte b) s = .next (State.answer { s with crc_r := crcStep s.crc_r b } [] .ok 0#32)) ∧
    exec .crcRead s = .next (s.answer [] .ok (s.crc_r ^^^ 0xFFFFFFFF#32))

/-- O17. `CRC.INIT`, one `CRC.BYTE` per byte, `CRC.READ`: the answer is the CRC-32 of the message, of any length, and nothing but `crc_r`
changes. -/
def Obligations.DirectCrcIsCrc32 : Prop :=
  ∀ (s : State) (m : List Byte),
    s.ph ≠ .dead → s.ph ≠ .rxType → s.ph ≠ .rxData → s.ph ≠ .rxCrc →
    execAll (.crcInit :: m.map Instr.crcByte ++ [.crcRead]) s =
      .next { s with
        crc_r := crc32 m ^^^ 0xFFFFFFFF#32
        replies := s.replies ++ List.replicate (m.length + 1) ⟨[], .ok, 0#32⟩ ++ [⟨[], .ok, crc32 m⟩] }

/-! ### The chunk type -/

/-- O18. R101: the flags word bit by bit, by the literal ranges of R100, with the two gates of R102. -/
def Obligations.TypeFlagsBitByBit : Prop :=
  ∀ t : Word,
    let up := fun k => 0x41 ≤ (t >>> k).toNat % 256 ∧ (t >>> k).toNat % 256 ≤ 0x5A
    let lo := fun k => 0x61 ≤ (t >>> k).toNat % 256 ∧ (t >>> k).toNat % 256 ≤ 0x7A
    let alphabetic := (up 24 ∨ lo 24) ∧ (up 16 ∨ lo 16) ∧ (up 8 ∨ lo 8) ∧ (up 0 ∨ lo 0)
    ((tyFlags t).getLsbD 0 = true ↔ up 24) ∧ ((tyFlags t).getLsbD 1 = true ↔ up 16) ∧
    ((tyFlags t).getLsbD 2 = true ↔ up 8) ∧ ((tyFlags t).getLsbD 3 = true ↔ lo 0) ∧
    ((tyFlags t).getLsbD 4 = true ↔ alphabetic ∧ up 8) ∧ ((tyFlags t).getLsbD 5 = true ↔ alphabetic) ∧
    (tyFlags t).extractLsb' 6 26 = 0#26 ∧
    (tyAlpha t = true ↔ alphabetic) ∧ (tyValid t = true ↔ alphabetic ∧ up 8)

/-- O19. R103: `TY.CHECK` answers the flags word of its operand, whatever the operand, and changes nothing. -/
def Obligations.TypeCheckAnswers : Prop :=
  (∀ t : Word, decode (0x20#8 ++ t) = .ok (.tyCheck t)) ∧
  ∀ (s : State) (t : Word), s.ph ≠ .dead → exec (.tyCheck t) s = .next (s.answer [] .ok (tyFlags t))

/-! ### Construction -/

/-- O20. R111: `CK.NEW`. -/
def Obligations.NewStartsAConstruction : Prop :=
  (∀ t : Word, decode (0x30#8 ++ t) = .ok (.ckNew t)) ∧
  ∀ (s : State) (t : Word), s.ph ≠ .dead →
    (tyAlpha t = false → exec (.ckNew t) s = .next (s.answer [] .invalidChunkType 0#32)) ∧
    (tyAlpha t = true → exec (.ckNew t) s =
      .next (State.answer
        { s with ck_type := t, fill := 0#32, ck_v := false, ty_bad := false, err := .ok, cnt := 0#3, ph := .asm } [] .ok 0#32))

/-- O21. R112: `CK.PUSH`: refused outside `ASM`, fatal when the buffer is full, else the byte goes to `buf[fill]` and nowhere else. -/
def Obligations.PushStoresAtFill : Prop :=
  (∀ b : Byte, decode (0x31#8 ++ 0#24 ++ b) = .ok (.ckPush b)) ∧
  (∀ (a : BitVec 24) (b : Byte), a ≠ 0#24 → decode (0x31#8 ++ a ++ b) = .error .reservedBitSet) ∧
  ∀ (s : State) (b : Byte), s.ph ≠ .dead → s.fill ≤ s.bufBytes →
    (s.ph ≠ .asm → exec (.ckPush b) s = .next (s.answer [] .badPhase 0#32)) ∧
    (s.ph = .asm → s.fill = s.bufBytes → exec (.ckPush b) s =
      .next (State.answer { s with ph := .dead, err := .fatalLength, ck_v := false } [] .fatalLength 0#32)) ∧
    (s.ph = .asm → s.fill ≠ s.bufBytes →
      ∃ t, exec (.ckPush b) s = .next t ∧
        t = State.answer { s with buf := t.buf, fill := t.fill } [] .ok 0#32 ∧
        t.fill.toNat = s.fill.toNat + 1 ∧
        t.buf.readByte s.fill.toNat = some b ∧ ∀ a, a ≠ s.fill.toNat → t.buf.readByte a = s.buf.readByte a)

/-- O22. R113: `CK.BUILD`: length from `fill`, CRC over the type bytes and the data; the slot becomes valid. -/
def Obligations.BuildDerivesLengthAndCrc : Prop :=
  decode 0x3200000000#40 = .ok .ckBuild ∧
  ∀ s : State, s.ph ≠ .dead →
    (s.ph ≠ .asm → exec .ckBuild s = .next (s.answer [] .badPhase 0#32)) ∧
    (s.ph = .asm → s.fill ≤ s.bufBytes → ∀ d : List Byte, d.length = s.fill.toNat → s.holds d →
      exec .ckBuild s =
        .next (State.answer
          { s with ck_len := s.fill, crc_r := crc32 (typeBytes s.ck_type ++ d) ^^^ 0xFFFFFFFF#32,
                   ck_crc := crc32 (typeBytes s.ck_type ++ d), ck_v := true, ph := .idle }
          [] .ok (crc32 (typeBytes s.ck_type ++ d))))

/-- O23. R110: the construction protocol, for data of any length the buffer holds: every command answers `OK` and the slot is the chunk
of the type and the data. -/
def Obligations.ConstructionProtocol : Prop :=
  ∀ (s : State) (t : Word) (d : List Byte), s.ph ≠ .dead → tyAlpha t = true → d.length ≤ s.bufBytes.toNat →
    ∃ u, execAll (.ckNew t :: d.map Instr.ckPush ++ [.ckBuild]) s = .next u ∧
      u.ph = .idle ∧ u.ck_v = true ∧ u.ck_type = t ∧ u.ck_len.toNat = d.length ∧ u.holds d ∧
      u.ck_crc = crc32 (typeBytes t ++ d) ∧ u.crc_r = u.ck_crc ^^^ 0xFFFFFFFF#32 ∧
      u.replies = s.replies ++ List.replicate (d.length + 1) ⟨[], .ok, 0#32⟩ ++ [⟨[], .ok, u.ck_crc⟩]

/-! ### The deframer -/

/-- O24. R120: `RX.BEGIN`. -/
def Obligations.BeginOpensASession : Prop :=
  (decode 0x4000000000#40 = .ok (.rxBegin false) ∧ decode 0x4000000001#40 = .ok (.rxBegin true) ∧
    ∀ (a : BitVec 31) (m : Bool), a ≠ 0#31 → decode (0x40#8 ++ a ++ BitVec.ofBool m) = .error .reservedBitSet) ∧
  ∀ (s : State) (m : Bool), s.ph ≠ .dead → exec (.rxBegin m) s =
    .next (State.answer
      { s with rx_m := m, ck_v := false, ty_bad := false, err := .ok, cnt := 0#3, fill := 0#32,
               ph := if m then .rxSig else .rxLen } [] .ok 0#32)

/-- O25. R121: `RX.BYTE` with no session open, in a failed session, and in an open one: an accepted byte leaves `ck_v` set exactly when
it completed a chunk, which is when it answers `(OK, 1)`. -/
def Obligations.RxByteBySession : Prop :=
  (∀ b : Byte, decode (0x41#8 ++ 0#24 ++ b) = .ok (.rxByte b)) ∧
  (∀ (a : BitVec 24) (b : Byte), a ≠ 0#24 → decode (0x41#8 ++ a ++ b) = .error .reservedBitSet) ∧
  ∀ (s : State) (b : Byte),
    (s.ph = .idle ∨ s.ph = .asm → exec (.rxByte b) s = .next (s.answer [] .badPhase 0#32)) ∧
    (s.ph = .fail → exec (.rxByte b) s = .next (s.answer [] s.err 0#32)) ∧
    (s.ph ∈ [Phase.rxSig, .rxLen, .rxType, .rxData, .rxCrc] → ∀ t, exec (.rxByte b) s = .next t →
      ∃ r : Reply, t.replies = s.replies ++ [r] ∧ (t.ck_v = true ↔ r = ⟨[], .ok, 1#32⟩))

/-- O26. R122: `RX.BYTE` in `RX_SIG`. -/
def Obligations.SignatureByte : Prop :=
  ∀ (s : State) (b : Byte), s.ph = .rxSig →
    let want := [0x89#8, 0x50#8, 0x4E#8, 0x47#8, 0x0D#8, 0x0A#8, 0x1A#8, 0x0A#8][s.cnt.toNat]?
    (want ≠ some b → exec (.rxByte b) s =
      .next (State.answer { s with ph := .fail, err := .badSignature, ck_v := false } [] .badSignature 0#32)) ∧
    (want = some b → s.cnt = 7#3 → exec (.rxByte b) s =
      .next (State.answer { s with ck_v := false, ph := .rxLen, cnt := 0#3 } [] .ok 0#32)) ∧
    (want = some b → s.cnt ≠ 7#3 → exec (.rxByte b) s =
      .next (State.answer { s with ck_v := false, cnt := s.cnt + 1#3 } [] .ok 0#32))

/-- O27. R123, R124: `RX.BYTE` in `RX_LEN`. -/
def Obligations.LengthByte : Prop :=
  ∀ (s : State) (b : Byte), s.ph = .rxLen →
    let len : Word := (s.ck_len <<< 8) ||| b.setWidth 32
    (s.cnt ≠ 3#3 → exec (.rxByte b) s =
      .next (State.answer { s with ck_v := false, ck_len := len, cnt := s.cnt + 1#3 } [] .ok 0#32)) ∧
    (s.cnt = 3#3 → len ≤ s.bufBytes → exec (.rxByte b) s =
      .next (State.answer { s with ck_v := false, ck_len := len, cnt := 0#3, ph := .rxType } [] .ok 0#32)) ∧
    (s.cnt = 3#3 → s.bufBytes < len → exec (.rxByte b) s =
      .next (State.answer { s with ck_v := false, ck_len := len, cnt := 0#3, ph := .fail, err := .unsupportedLength }
        [] .unsupportedLength 0#32))

/-- O28. R125: `RX.BYTE` in `RX_TYPE`. -/
def Obligations.TypeByte : Prop :=
  ∀ (s : State) (b : Byte), s.ph = .rxType →
    let ty : Word := (s.ck_type <<< 8) ||| b.setWidth 32
    let crc : Word := crcStep (if s.cnt = 0#3 then 0xFFFFFFFF#32 else s.crc_r) b
    (s.cnt ≠ 3#3 → exec (.rxByte b) s =
      .next (State.answer { s with ck_v := false, ck_type := ty, crc_r := crc, cnt := s.cnt + 1#3 } [] .ok 0#32)) ∧
    (s.cnt = 3#3 → exec (.rxByte b) s =
      .next (State.answer
        { s with ck_v := false, ck_type := ty, crc_r := crc, ty_bad := !tyValid ty, cnt := 0#3, fill := 0#32,
                 ph := if s.ck_len = 0#32 then .rxCrc else .rxData } [] .ok 0#32))

/-- O29. R126: `RX.BYTE` in `RX_DATA`: the byte goes to `buf[fill]` and nowhere else, and into the CRC. -/
def Obligations.DataByteIsStored : Prop :=
  ∀ (s : State) (b : Byte), s.ph = .rxData → s.fill < s.ck_len → s.ck_len ≤ s.bufBytes →
    ∃ t, exec (.rxByte b) s = .next t ∧
      t = State.answer
        { s with ck_v := false, buf := t.buf, crc_r := crcStep s.crc_r b, fill := t.fill, ph := t.ph } [] .ok 0#32 ∧
      t.fill.toNat = s.fill.toNat + 1 ∧
      (t.fill = s.ck_len → t.ph = .rxCrc) ∧ (t.fill ≠ s.ck_len → t.ph = .rxData) ∧
      t.buf.readByte s.fill.toNat = some b ∧ ∀ a, a ≠ s.fill.toNat → t.buf.readByte a = s.buf.readByte a

/-- O30. R127: `RX.BYTE` in `RX_CRC`, the verdict at the fourth byte, the type before the CRC. -/
def Obligations.StoredCrcByteAndVerdict : Prop :=
  ∀ (s : State) (b : Byte), s.ph = .rxCrc →
    let crc : Word := (s.ck_crc <<< 8) ||| b.setWidth 32
    (s.cnt ≠ 3#3 → exec (.rxByte b) s =
      .next (State.answer { s with ck_v := false, ck_crc := crc, cnt := s.cnt + 1#3 } [] .ok 0#32)) ∧
    (s.cnt = 3#3 → s.ty_bad = true → exec (.rxByte b) s =
      .next (State.answer { s with ck_v := false, ck_crc := crc, ph := .fail, err := .invalidChunkType }
        [] .invalidChunkType 0#32)) ∧
    (s.cnt = 3#3 → s.ty_bad = false → crc ≠ s.crc_r ^^^ 0xFFFFFFFF#32 → exec (.rxByte b) s =
      .next (State.answer { s with ck_v := false, ck_crc := crc, ph := .fail, err := .crcMismatch } [] .crcMismatch 0#32)) ∧
    (s.cnt = 3#3 → s.ty_bad = false → crc = s.crc_r ^^^ 0xFFFFFFFF#32 → exec (.rxByte b) s =
      .next (State.answer
        { s with ck_v := true, ck_crc := crc, cnt := 0#3, ph := if s.rx_m then .rxLen else .idle } [] .ok 1#32))

/-- O31. R129: `RX.END`. -/
def Obligations.EndOfInput : Prop :=
  decode 0x4200000000#40 = .ok .rxEnd ∧
  ∀ s : State, s.ph ≠ .dead →
    (s.ph = .idle ∨ s.ph = .asm → exec .rxEnd s = .next (s.answer [] .badPhase 0#32)) ∧
    (s.ph = .fail → exec .rxEnd s = .next (s.answer [] s.err 0#32)) ∧
    (s.ph = .rxSig → exec .rxEnd s =
      .next (State.answer { s with ph := .fail, err := .badSignature, ck_v := false } [] .badSignature 0#32)) ∧
    (s.ph = .rxLen ∧ s.cnt = 0#3 ∧ s.rx_m = true → exec .rxEnd s = .next (State.answer { s with ph := .idle } [] .ok 0#32)) ∧
    (s.ph = .rxLen ∧ (s.cnt ≠ 0#3 ∨ s.rx_m = false) ∨ s.ph = .rxType ∨ s.ph = .rxData ∨ s.ph = .rxCrc → exec .rxEnd s =
      .next (State.answer { s with ph := .fail, err := .truncatedChunk, ck_v := false } [] .truncatedChunk 0#32))

/-- O32. R131: the phase table, row by row, for every command in every state that meets the invariants (`DEAD`, the last row, apart). -/
def Obligations.PhaseTableOfR131 : Prop :=
  (∀ (s t : State) (w : CmdWord) (rest : List HostEvent), s.ph = .dead → s.inbox = .command w :: rest → step s = .next t →
    t.ph = .dead ∧ t.cnt = s.cnt ∧ t.replies = s.replies ++ [⟨[], .fatalLength, 0#32⟩]) ∧
  ∀ (s t : State) (i : Instr), s.Inv → s.ph ≠ .dead → exec i s = .next t →
    t.ph = (phaseRow s t.ck_crc i).1 ∧ t.cnt = (phaseRow s t.ck_crc i).2.1 ∧
    ∀ st v, (phaseRow s t.ck_crc i).2.2 = some (st, v) → t.replies = s.replies ++ [⟨[], st, v⟩]

/-- O33. R132 (a): a mode-0 session fed an input byte by byte ends as `parse_chunk` of the whole input says. -/
def Obligations.SingleChunkSessionIsParseChunk : Prop :=
  ∀ (s : State) (w : List Byte), s.ph ≠ .dead →
    match parseChunk s.bufBytes w with
    | .chunk c rest =>
      w = c.wire ++ rest ∧
      ∃ t, execAll (.rxBegin false :: c.wire.map Instr.rxByte) s = .next t ∧
        t.ph = .idle ∧ t.ck_v = true ∧ t.slot = c ∧ t.holds c.data ∧ c.data.length = c.len.toNat ∧
        t.replies = s.replies ++ List.replicate (12 + c.len.toNat) ⟨[], .ok, 0#32⟩ ++ [⟨[], .ok, 1#32⟩]
    | .bad st =>
      ∃ t rs, execAll (.rxBegin false :: w.map Instr.rxByte ++ [.rxEnd]) s = .next t ∧
        t.ph = .fail ∧ t.err = st ∧ t.ck_v = false ∧
        t.replies = s.replies ++ rs ++ [⟨[], st, 0#32⟩] ∧ ∀ r ∈ rs, r.out = [] ∧ (r.st = .ok ∨ r.st = st) ∧ r.val = 0#32

/-- O34. R132 (b): a mode-1 session fed a whole input and then `RX.END` ends as `parse_chunk` applied again and again says, and the slots
at the `(OK, 1)` responses are the chunks in order. -/
def Obligations.StreamSessionIsParseStream : Prop :=
  ∀ (s : State) (w : List Byte), s.ph ≠ .dead →
    ∃ t rs, execAll (.rxBegin true :: w.map Instr.rxByte ++ [.rxEnd]) s = .next t ∧
      t.replies = s.replies ++ rs ++ [⟨[], (parseStream s.bufBytes w).2, 0#32⟩] ∧
      (if (parseStream s.bufBytes w).2 = .ok then t.ph = .idle else t.ph = .fail ∧ t.err = (parseStream s.bufBytes w).2) ∧
      ∀ u, exec (.rxBegin true) s = .next u → slotsSeen w u = (parseStream s.bufBytes w).1

/-- O35. R133: a valid slot whose type passes the full gate, emitted and parsed again, comes back the same. -/
def Obligations.EmitThenParseIsTheSameChunk : Prop :=
  ∀ s : State, s.Inv → s.ck_v = true → tyValid s.ck_type = true →
    ∃ u t, exec .ckEmit s = .next u ∧ u.replies = s.replies ++ [⟨s.slot.wire, .ok, 0#32⟩] ∧
      execAll (.rxBegin false :: s.slot.wire.map Instr.rxByte) u = .next t ∧
      t.ck_v = true ∧ t.ck_len = s.ck_len ∧ t.ck_type = s.ck_type ∧ t.ck_crc = s.ck_crc ∧
      (∀ a < s.ck_len.toNat, t.buf.readByte a = s.buf.readByte a) ∧
      t.replies = u.replies ++ List.replicate (12 + s.ck_len.toNat) ⟨[], .ok, 0#32⟩ ++ [⟨[], .ok, 1#32⟩]

/-- O36. R133, conversely: after a chunk parsed with verdict `OK`, `CK.EMIT` gives exactly the bytes that were fed for it. -/
def Obligations.ParseThenEmitIsTheSameBytes : Prop :=
  ∀ (s t : State) (w : List Byte), s.ph ≠ .dead →
    execAll (.rxBegin false :: w.map Instr.rxByte) s = .next t → t.replies.getLast? = some ⟨[], .ok, 1#32⟩ →
    exec .ckEmit t = .next (t.answer w .ok 0#32)

/-- O37. R133, for streams: the signature and the wire forms of any chunks whose types pass the full gate are accepted by a mode-1
session, which yields the same chunks in the same order. -/
def Obligations.StreamRoundTrip : Prop :=
  ∀ (s : State) (cs : List (Word × List Byte)), s.ph ≠ .dead →
    (∀ c ∈ cs, tyValid c.1 = true ∧ c.2.length ≤ s.bufBytes.toNat) →
    let made := cs.map fun c => Chunk.make c.1 c.2
    let w := Config.sig.toList ++ made.flatMap Chunk.wire
    ∃ t u, execAll (.rxBegin true :: w.map Instr.rxByte ++ [.rxEnd]) s = .next t ∧ t.ph = .idle ∧
      t.replies.getLast? = some ⟨[], .ok, 0#32⟩ ∧ exec (.rxBegin true) s = .next u ∧ slotsSeen w u = made

/-- O38. R134: one bit of the data, of the type or of the stored CRC of a good chunk flipped: a mode-0 session fails, with the status the
rule gives, and the slot is not valid. -/
def Obligations.OneFlippedBitFailsTheParse : Prop :=
  ∀ (s : State) (t : Word) (d : List Byte), s.ph ≠ .dead → tyValid t = true → d.length ≤ s.bufBytes.toNat →
    let c := Chunk.make t d
    let ends := fun (c' : Chunk) (st : Status) =>
      ∃ u, execAll (.rxBegin false :: c'.wire.map Instr.rxByte) s = .next u ∧ u.ph = .fail ∧ u.err = st ∧ u.ck_v = false ∧
        u.replies.getLast? = some ⟨[], st, 0#32⟩
    (∀ j k, j < d.length → k < 8 → ends { c with data := d.modify j (· ^^^ (1#8 <<< k)) } .crcMismatch) ∧
    (∀ k, k < 32 → ends { c with crc := c.crc ^^^ (1#32 <<< k) } .crcMismatch) ∧
    (∀ k, k < 32 → ends { c with type := t ^^^ (1#32 <<< k) }
      (if tyValid (t ^^^ (1#32 <<< k)) then .crcMismatch else .invalidChunkType))

/-! ### Accessors, framer, system -/

/-- O39. R141, R142, R143, R145: the four accessors of a register of the slot. -/
def Obligations.AccessorsAnswerTheSlot : Prop :=
  (decode 0x5000000000#40 = .ok .ckLen ∧ decode 0x5100000000#40 = .ok .ckType ∧ decode 0x5200000000#40 = .ok .ckCrc ∧
    decode 0x5400000000#40 = .ok .ckFlags) ∧
  ∀ s : State, s.ph ≠ .dead →
    (s.ck_v = true → exec .ckLen s = .next (s.answer [] .ok s.ck_len) ∧ exec .ckType s = .next (s.answer [] .ok s.ck_type) ∧
      exec .ckCrc s = .next (s.answer [] .ok s.ck_crc) ∧ exec .ckFlags s = .next (s.answer [] .ok (tyFlags s.ck_type))) ∧
    (s.ck_v = false → ∀ i ∈ [Instr.ckLen, .ckType, .ckCrc, .ckFlags], exec i s = .next (s.answer [] .badPhase 0#32))

/-- O40. R144: `CK.DATA`, the slot test before the index test. -/
def Obligations.DataAccessorReadsTheByte : Prop :=
  (∀ k : Word, decode (0x53#8 ++ k) = .ok (.ckData k)) ∧
  ∀ (s : State) (k : Word), s.ph ≠ .dead →
    (s.ck_v = false → exec (.ckData k) s = .next (s.answer [] .badPhase 0#32)) ∧
    (s.ck_v = true → s.ck_len.toNat ≤ k.toNat → exec (.ckData k) s = .next (s.answer [] .badIndex 0#32)) ∧
    (s.ck_v = true → k.toNat < s.ck_len.toNat → s.ck_len ≤ s.bufBytes → ∀ b, s.buf.readByte k.toNat = some b →
      exec (.ckData k) s = .next (s.answer [] .ok (b.setWidth 32)))

/-- O41. R151: `CK.EMIT` emits length, type, data, CRC, most significant bytes first, and changes nothing. -/
def Obligations.EmitIsTheWireLayout : Prop :=
  decode 0x6000000000#40 = .ok .ckEmit ∧
  ∀ s : State, s.ph ≠ .dead →
    (s.ck_v = false → exec .ckEmit s = .next (s.answer [] .badPhase 0#32)) ∧
    (s.ck_v = true → s.ck_len ≤ s.bufBytes → ∀ d : List Byte, d.length = s.ck_len.toNat → s.holds d →
      exec .ckEmit s = .next (s.answer
        ([s.ck_len.extractLsb' 24 8, s.ck_len.extractLsb' 16 8, s.ck_len.extractLsb' 8 8, s.ck_len.extractLsb' 0 8] ++
         [s.ck_type.extractLsb' 24 8, s.ck_type.extractLsb' 16 8, s.ck_type.extractLsb' 8 8, s.ck_type.extractLsb' 0 8] ++
         d ++
         [s.ck_crc.extractLsb' 24 8, s.ck_crc.extractLsb' 16 8, s.ck_crc.extractLsb' 8 8, s.ck_crc.extractLsb' 0 8]) .ok 0#32))

/-- O42. R152: `SIG.EMIT`. -/
def Obligations.SignatureIsEmitted : Prop :=
  decode 0x6100000000#40 = .ok .sigEmit ∧
  ∀ s : State, s.ph ≠ .dead → exec .sigEmit s =
    .next (s.answer [0x89#8, 0x50#8, 0x4E#8, 0x47#8, 0x0D#8, 0x0A#8, 0x1A#8, 0x0A#8] .ok 0#32)

/-- O43. R153: a host that gives each chunk of a sequence in turn gets the byte stream of the container, of
`8 + sum of (12 + L_k)` bytes. -/
def Obligations.ContainerSerialization : Prop :=
  ∀ (s : State) (cs : List (Word × List Byte)), s.ph ≠ .dead →
    (∀ c ∈ cs, tyAlpha c.1 = true ∧ c.2.length ≤ s.bufBytes.toNat) →
    let w := Config.sig.toList ++ cs.flatMap fun c => (Chunk.make c.1 c.2).wire
    w.length = 8 + (cs.map fun c => 12 + c.2.length).sum ∧
    ∃ t, execAll (.sigEmit :: cs.flatMap fun c => .ckNew c.1 :: c.2.map Instr.ckPush ++ [.ckBuild, .ckEmit]) s = .next t ∧
      t.outStream = s.outStream ++ w

/-- O44. R160, R161, R162: the system commands. -/
def Obligations.SystemCommands : Prop :=
  (decode 0x0000000000#40 = .ok .nop ∧ decode 0x0100000000#40 = .ok .stRead ∧ decode 0x0200000000#40 = .ok .ckClear) ∧
  ∀ s : State, s.ph ≠ .dead →
    exec .nop s = .next (s.answer [] .ok 0#32) ∧
    exec .stRead s = .next (s.answer [] .ok (statusWord s)) ∧
    exec .ckClear s = .next (State.answer
      { s with ph := .idle, ck_v := false, ty_bad := false, err := .ok, cnt := 0#3, fill := 0#32 } [] .ok 0#32)

/-- O45. R36: the fields of `STATUS`, with the phase numbers of R30 and the status numbers of R170. -/
def Obligations.StatusWordFields : Prop :=
  (∀ s : State,
    (statusWord s).extractLsb' 0 4 = phaseCode s.ph ∧ (statusWord s).getLsbD 4 = s.ck_v ∧
    (statusWord s).getLsbD 5 = s.ty_bad ∧ (statusWord s).getLsbD 6 = s.rx_m ∧ (statusWord s).getLsbD 7 = false ∧
    (statusWord s).extractLsb' 8 3 = s.cnt ∧ (statusWord s).getLsbD 11 = false ∧
    (statusWord s).extractLsb' 12 4 = statusCode s.err ∧ (statusWord s).extractLsb' 16 16 = 0#16) ∧
  statusWord State.reset = 0#32 ∧
  ([Phase.idle, .asm, .rxSig, .rxLen, .rxType, .rxData, .rxCrc, .fail, .dead].map fun p => (phaseCode p).toNat) =
    [0, 1, 2, 3, 4, 5, 6, 7, 8] ∧
  ([Status.ok, .invalidChunkType, .truncatedChunk, .crcMismatch, .badSignature, .fatalLength, .unsupportedLength, .badPhase,
    .illegalCommand, .badIndex].map fun st => (statusCode st).toNat) = [0, 1, 2, 3, 4, 7, 8, 9, 10, 11]

/-! ### The three bad endings -/

/-- O46. R181: what is refused changes nothing: no register, no byte of `buf` or of `OUT`, and `ph` and `err` stay. -/
def Obligations.RefusalsChangeNothing : Prop :=
  ∀ (s t : State) (w : CmdWord) (rest : List HostEvent) (r : Reply),
    s.inbox = .command w :: rest → step s = .next t → t.replies = s.replies ++ [r] →
    (r.st ∈ [Status.illegalCommand, .badPhase, .badIndex] ∨
      (r.st = .invalidChunkType ∧ ∃ ty, decode w = .ok (.ckNew ty)) ∨
      (s.ph = .fail ∧ ((∃ b, decode w = .ok (.rxByte b)) ∨ decode w = .ok .rxEnd)) ∨
      s.ph = .dead) →
    t = State.answer { s with inbox := rest } [] r.st 0#32

/-- O47. R182: a session fails only in `RX.BYTE` and `RX.END`, with one of five statuses, latched in `err`. What the command wrote before
the raise is kept: the length shifted in and `cnt` 0 in `RX_LEN`, the CRC shifted in in `RX_CRC`, nothing elsewhere; the rest is as it
was. -/
def Obligations.FailEndsASession : Prop :=
  ∀ (s t : State) (i : Instr), s.ph ≠ .fail → exec i s = .next t → t.ph = .fail →
    (i = .rxEnd ∨ ∃ b, i = .rxByte b) ∧ s.ph ∈ [Phase.rxSig, .rxLen, .rxType, .rxData, .rxCrc] ∧
    t.err ∈ [Status.invalidChunkType, .truncatedChunk, .crcMismatch, .badSignature, .unsupportedLength] ∧
    t.ck_v = false ∧ t.replies = s.replies ++ [⟨[], t.err, 0#32⟩] ∧
    t = { s with ph := .fail, err := t.err, ck_v := false, ck_len := t.ck_len, ck_crc := t.ck_crc, cnt := t.cnt,
                 replies := t.replies } ∧
    (∀ b, i = .rxByte b → s.ph = .rxLen →
      t.ck_len = (s.ck_len <<< 8) ||| b.setWidth 32 ∧ t.ck_crc = s.ck_crc ∧ t.cnt = 0#3) ∧
    (∀ b, i = .rxByte b → s.ph = .rxCrc →
      t.ck_len = s.ck_len ∧ t.ck_crc = (s.ck_crc <<< 8) ||| b.setWidth 32 ∧ t.cnt = s.cnt) ∧
    (i = .rxEnd ∨ s.ph ≠ .rxLen ∧ s.ph ≠ .rxCrc → t.ck_len = s.ck_len ∧ t.ck_crc = s.ck_crc ∧ t.cnt = s.cnt)

/-- O48. R183: `DEAD` is entered only by `CK.PUSH` with a full buffer; no command leaves it; reset does. -/
def Obligations.FatalEntersDeadForGood : Prop :=
  (∀ (s t : State) (i : Instr), s.ph ≠ .dead → exec i s = .next t → t.ph = .dead →
    (∃ b, i = .ckPush b) ∧ s.ph = .asm ∧ s.fill = s.bufBytes ∧
    t = State.answer { s with ph := .dead, err := .fatalLength, ck_v := false } [] .fatalLength 0#32) ∧
  (∀ (s t : State) (w : CmdWord) (rest : List HostEvent), s.ph = .dead → s.inbox = .command w :: rest → step s = .next t →
    t.ph = .dead) ∧
  (∀ (s t : State) (rest : List HostEvent), s.ph = .dead → s.inbox = .reset :: rest → step s = .next t → t.ph = .idle)

/-- O49. R190: in `FAIL`, the three commands that leave it and what they clear, the commands that are refused, and those that work. The
premise `ck_v = 0` is R43's. -/
def Obligations.LeavingFail : Prop :=
  ∀ (s t : State) (i : Instr), s.ph = .fail → s.ck_v = false → exec i s = .next t →
    (t.ph ≠ .fail ↔ i = .ckClear ∨ (∃ ty, i = .ckNew ty ∧ tyAlpha ty = true) ∨ ∃ m, i = .rxBegin m) ∧
    (t.ph ≠ .fail → t.err = .ok ∧ t.ty_bad = false ∧ t.ck_v = false ∧ t.cnt = 0#3 ∧ t.fill = 0#32) ∧
    (i = .ckClear → t.ph = .idle) ∧ (∀ ty, i = .ckNew ty → tyAlpha ty = true → t.ph = .asm) ∧
    (i = .rxBegin true → t.ph = .rxSig) ∧ (i = .rxBegin false → t.ph = .rxLen) ∧
    ((i = .rxEnd ∨ ∃ b, i = .rxByte b) → t = s.answer [] s.err 0#32) ∧
    ((i ∈ [Instr.ckBuild, .ckLen, .ckType, .ckCrc, .ckFlags, .ckEmit] ∨ (∃ b, i = .ckPush b) ∨ ∃ k, i = .ckData k) →
      t = s.answer [] .badPhase 0#32) ∧
    ((i ∈ [Instr.nop, .stRead, .crcInit, .crcRead, .sigEmit] ∨ (∃ b, i = .crcByte b) ∨ ∃ ty, i = .tyCheck ty) →
      ∃ r : Reply, t.replies = s.replies ++ [r] ∧ r.st = .ok)

/-! ### Invariants and whole-machine rules -/

/-- O50. The invariants hold after reset, whatever the capacity. -/
def Obligations.InvariantsHoldAtReset : Prop := ∀ cap : Word, State.Inv { State.reset with bufBytes := cap }

/-- O51. R40 to R43, with the running CRC, the latched verdict and the written bytes that make them inductive: every step keeps them,
from every state that meets them. -/
def Obligations.InvariantsKeptByEveryStep : Prop := ∀ s t : State, s.Inv → step s = .next t → t.Inv

/-- O52. R44, R51, R12, R215: a state that meets the invariants always has a next state: no step stops, so no command reads a byte that
nothing has written and no access falls outside `buf`. -/
def Obligations.NoStepStops : Prop := ∀ s : State, s.Inv → ∃ t, step s = .next t

/-- O53. R40: the counter, in every state a run can reach. -/
def Obligations.CounterBoundsInEveryRun : Prop :=
  ∀ s : State, Reachable s →
    (phaseCode s.ph).toNat ≤ 8 ∧ s.cnt.toNat ≤ 7 ∧
    (s.cnt.toNat ≤ 3 ∨ s.ph = .rxSig ∨ s.ph = .fail ∨ s.ph = .dead) ∧
    (s.ph = .idle ∨ s.ph = .asm ∨ s.ph = .rxData → s.cnt = 0#3)

/-- O54. R41: what a valid slot is, in every state a run can reach; a slot that a parse filled also passes the full gate. Clause (c) is
stated as "has a value" (log entry 5), not as "written since reset". A corollary of O50 and O51. -/
def Obligations.ValidSlotIsAnAuthenticChunk : Prop :=
  (∀ s : State, Reachable s → s.ck_v = true →
    (s.ph = .idle ∨ s.ph = .rxLen ∧ s.cnt = 0#3 ∧ s.rx_m = true) ∧
    s.ck_len ≤ s.bufBytes ∧ s.fill = s.ck_len ∧
    (∃ d : List Byte, d.length = s.ck_len.toNat ∧ s.holds d ∧
      s.ck_crc = crc32 ([s.ck_type.extractLsb' 24 8, s.ck_type.extractLsb' 16 8, s.ck_type.extractLsb' 8 8,
        s.ck_type.extractLsb' 0 8] ++ d)) ∧
    tyAlpha s.ck_type = true ∧ s.err = .ok) ∧
  (∀ (s t : State) (b : Byte), Reachable s → exec (.rxByte b) s = .next t → s.ph ≠ .idle → t.ck_v = true →
    tyValid t.ck_type = true)

/-- O55. R42: `fill`, in every state a run can reach. -/
def Obligations.FillBoundsInEveryRun : Prop :=
  ∀ s : State, Reachable s →
    s.fill ≤ s.bufBytes ∧ (s.ph = .asm → tyAlpha s.ck_type = true ∧ s.ck_v = false) ∧
    (s.ph = .rxData → s.fill < s.ck_len ∧ s.ck_len ≤ s.bufBytes) ∧
    (s.ph = .rxType ∨ s.ph = .rxData ∨ s.ph = .rxCrc → s.ck_len ≤ s.bufBytes)

/-- O56. R43: `err`, in every state a run can reach. -/
def Obligations.ErrInEveryRun : Prop :=
  ∀ s : State, Reachable s →
    (s.ph ≠ .fail → s.ph ≠ .dead → (statusCode s.err).toNat = 0) ∧
    (s.ph = .fail → (statusCode s.err).toNat ∈ [1, 2, 3, 4, 8] ∧ s.ck_v = false) ∧
    (s.ph = .dead → (statusCode s.err).toNat = 7 ∧ s.ck_v = false)

/-- O57. R44, 93 U1: what `buf` holds from `fill` up is never observed: two machines that differ only there give the same replies for
ever and keep differing only there. Right after reset `fill` is 0, so the whole of `buf` may differ. -/
def Obligations.UnspecifiedBytesAreNeverObserved : Prop :=
  ∀ s t s' : State, s.Inv → s.agreeBelowFill t → step s = .next s' → ∃ t', step t = .next t' ∧ s'.agreeBelowFill t'

/-- O58. R60: the pure reads: nothing but the replies changes, and a second issue gives the same answer again. -/
def Obligations.ReadsHaveNoSideEffects : Prop :=
  ∀ (s t : State) (i : Instr),
    (i ∈ [Instr.crcRead, .stRead, .ckLen, .ckType, .ckCrc, .ckFlags, .ckEmit, .sigEmit, .nop] ∨ (∃ ty, i = .tyCheck ty) ∨
      ∃ k, i = .ckData k) → exec i s = .next t →
    ∃ r : Reply, t = { s with replies := s.replies ++ [r] } ∧ exec i t = .next { t with replies := t.replies ++ [r] }

/-- O59. R26: a register that is not in the "writes" column of a command is unchanged by it, and of `buf` only the byte at `fill` can
change; no command changes the capacity or what the host has presented. -/
def Obligations.RegistersWrittenAsInR26 : Prop :=
  ∀ (s t : State) (i : Instr), exec i s = .next t →
    (∀ r : Reg, r ∉ registersWritten i → r.sameIn s t) ∧ (∀ a, a ≠ s.fill.toNat → t.buf.readByte a = s.buf.readByte a) ∧
    t.bufBytes = s.bufBytes ∧ t.inbox = s.inbox

/-- O60. R114, R66: while the slot stays valid no command changes the chunk in it; `CK.PUSH` and `CK.BUILD` are refused. -/
def Obligations.ValidSlotIsImmutable : Prop :=
  ∀ (s t : State) (i : Instr), s.Inv → s.ck_v = true → exec i s = .next t →
    (t.ck_v = true → t.slot = s.slot) ∧
    ((i = .ckBuild ∨ ∃ b, i = .ckPush b) → t = s.answer [] .badPhase 0#32) ∧
    (t.slot ≠ s.slot → (∃ ty, i = .ckNew ty) ∨ i = .ckClear ∨ (∃ m, i = .rxBegin m) ∨ ∃ b, i = .rxByte b)
end

