-- ==== Sys2Proof/Laws/Decode.lean ====
section
/-! SUPPORT. The fields of a command word and what each format reads from them, said once. -/

namespace Sys2Proof

/-! ### Fields -/

theorem cmdWord_toNat (o : Byte) (a : Word) : (o ++ a : CmdWord).toNat = o.toNat * 2 ^ 32 + a.toNat := by
  have h : (o ++ a : CmdWord).toNat = o.toNat <<< 32 ||| a.toNat := BitVec.toNat_append ..
  rw [h, ← Nat.shiftLeft_add_eq_or_of_lt a.isLt, Nat.shiftLeft_eq]

@[simp] theorem CmdWord.op_append (o : Byte) (a : Word) : CmdWord.op (o ++ a) = o := by
  apply BitVec.eq_of_toNat_eq
  rw [CmdWord.op, BitVec.extractLsb'_toNat, cmdWord_toNat, Nat.shiftRight_eq_div_pow]
  have := o.isLt; have := a.isLt; omega

@[simp] theorem CmdWord.arg_append (o : Byte) (a : Word) : CmdWord.arg (o ++ a) = a := by
  apply BitVec.eq_of_toNat_eq
  rw [CmdWord.arg, BitVec.extractLsb'_toNat, cmdWord_toNat, Nat.shiftRight_eq_div_pow]
  have := o.isLt; have := a.isLt; omega

/-- A command word is its two fields (R70). -/
theorem CmdWord.eq_op_append_arg (w : CmdWord) : w.op ++ w.arg = w := by
  apply BitVec.eq_of_toNat_eq
  rw [cmdWord_toNat, CmdWord.op, CmdWord.arg, BitVec.extractLsb'_toNat, BitVec.extractLsb'_toNat, Nat.shiftRight_eq_div_pow,
    Nat.shiftRight_eq_div_pow]
  have := w.isLt; omega

theorem CmdWord.op_toNat (w : CmdWord) : w.op.toNat = (w >>> 32).toNat := by
  simp only [CmdWord.op, BitVec.extractLsb'_toNat, BitVec.toNat_ushiftRight, Nat.shiftRight_eq_div_pow]
  have := w.isLt; omega

/-- The reserved part and the byte of a format-B operand. -/
theorem byteArg_toNat (r : BitVec 24) (b : Byte) : (r ++ b : Word).toNat = r.toNat * 2 ^ 8 + b.toNat := by
  have h : (r ++ b : Word).toNat = r.toNat <<< 8 ||| b.toNat := BitVec.toNat_append ..
  rw [h, ← Nat.shiftLeft_add_eq_or_of_lt b.isLt, Nat.shiftLeft_eq]

/-- The same command word, grouped from the left or from the right. -/
theorem byteWord_assoc (o : Byte) (r : BitVec 24) (b : Byte) : (o ++ r ++ b : CmdWord) = (o ++ (r ++ b : Word) : CmdWord) := by
  rw [BitVec.append_assoc]; simp

/-! ### Formats -/

theorem decodeN_eq_ok {a : Word} {i j : Instr} : decodeN a i = .ok j ↔ a = 0#32 ∧ j = i := by
  unfold decodeN
  by_cases h : a = 0#32
  · rw [if_pos h]
    exact ⟨fun e => ⟨h, (Except.ok.inj e).symm⟩, fun e => by rw [e.2]⟩
  · rw [if_neg h]
    exact ⟨fun e => by simp at e, fun e => absurd e.1 h⟩

theorem decodeB_append (r : BitVec 24) (b : Byte) (mk : Byte → Instr) :
    decodeB (r ++ b) mk = if r = 0#24 then .ok (mk b) else .error .reservedBitSet := by
  have h1 : (r ++ b : Word).extractLsb' 8 24 = r := by
    apply BitVec.eq_of_toNat_eq
    rw [BitVec.extractLsb'_toNat, byteArg_toNat, Nat.shiftRight_eq_div_pow]
    have := r.isLt; have := b.isLt; omega
  have h2 : (r ++ b : Word).extractLsb' 0 8 = b := by
    apply BitVec.eq_of_toNat_eq
    rw [BitVec.extractLsb'_toNat, byteArg_toNat, Nat.shiftRight_eq_div_pow]
    have := r.isLt; have := b.isLt; omega
  unfold decodeB
  rw [h1, h2]

theorem decodeB_eq_ok {a : Word} {mk : Byte → Instr} {i : Instr} :
    decodeB a mk = .ok i ↔ ∃ b : Byte, a = BitVec.ofNat 32 b.toNat ∧ i = mk b := by
  constructor
  · intro h
    unfold decodeB at h
    split_ifs at h with hz
    refine ⟨_, ?_, (Except.ok.inj h).symm⟩
    have hr := congrArg BitVec.toNat hz
    apply BitVec.eq_of_toNat_eq
    simp [BitVec.extractLsb'_toNat, Nat.shiftRight_eq_div_pow] at hr ⊢
    omega
  · rintro ⟨b, rfl, rfl⟩
    have hb : BitVec.ofNat 32 b.toNat = (0#24 ++ b : Word) := by
      apply BitVec.eq_of_toNat_eq
      rw [byteArg_toNat, BitVec.toNat_ofNat]
      have := b.isLt; simp; omega
    rw [hb, decodeB_append, if_pos rfl]

theorem decodeM_eq_ok {a : Word} {mk : Bool → Instr} {i : Instr} :
    decodeM a mk = .ok i ↔ ∃ m : Bool, a = BitVec.ofNat 32 m.toNat ∧ i = mk m := by
  constructor
  · intro h
    unfold decodeM at h
    split_ifs at h with hz
    refine ⟨_, ?_, (Except.ok.inj h).symm⟩
    have hr := congrArg BitVec.toNat hz
    apply BitVec.eq_of_toNat_eq
    simp [BitVec.extractLsb'_toNat, Nat.shiftRight_eq_div_pow, BitVec.getLsbD, Nat.testBit_zero] at hr ⊢
    rcases Nat.mod_two_eq_zero_or_one a.toNat with h0 | h0 <;> simp [h0] <;> omega
  · rintro ⟨m, rfl, rfl⟩
    cases m <;> rfl

end Sys2Proof
end

