-- ==== Sys2Proof/Laws/Memory.lean ====
section
/-! SUPPORT. The laws of the data buffer: read after write, and that a write keeps the canonical form. -/

namespace Sys2Proof.Machine

@[simp] theorem Memory.readByte_nil (a : Nat) : Memory.readByte [] a = none := rfl

/-- A read at the written index gives the byte written. -/
@[simp] theorem Memory.readByte_writeByte_same (m : Memory) (a : Nat) (b : Byte) :
    (m.writeByte a b).readByte a = some b := by
  induction m with
  | nil => simp [Memory.writeByte, Memory.readByte]
  | cons c rest ih =>
    obtain ⟨k, v⟩ := c
    unfold Memory.writeByte
    split_ifs with h1 h2
    · simp [Memory.readByte]
    · simp [Memory.readByte]
    · simp [Memory.readByte, Ne.symm h2, ih]

/-- A write leaves every other index alone. -/
theorem Memory.readByte_writeByte_ne (m : Memory) {a x : Nat} (b : Byte) (h : x ≠ a) :
    (m.writeByte a b).readByte x = m.readByte x := by
  induction m with
  | nil => simp [Memory.writeByte, Memory.readByte, Ne.symm h]
  | cons c rest ih =>
    obtain ⟨k, v⟩ := c
    unfold Memory.writeByte
    split_ifs with h1 h2
    · simp [Memory.readByte, Ne.symm h]
    · subst h2
      simp [Memory.readByte, Ne.symm h]
    · simp [Memory.readByte, ih]

theorem Memory.readByte_writeByte (m : Memory) (a x : Nat) (b : Byte) :
    (m.writeByte a b).readByte x = if x = a then some b else m.readByte x := by
  split_ifs with h
  · rw [h, Memory.readByte_writeByte_same]
  · exact Memory.readByte_writeByte_ne m b h

/-- The indexes of a written memory are the old ones and the written one. -/
theorem Memory.mem_writeByte {m : Memory} {a : Nat} {b : Byte} {c : Host.Cell} (h : c ∈ m.writeByte a b) :
    c = (a, b) ∨ c ∈ m := by
  induction m with
  | nil => simpa [Memory.writeByte] using h
  | cons d rest ih =>
    obtain ⟨k, v⟩ := d
    unfold Memory.writeByte at h
    split_ifs at h with h1 h2
    · simpa using h
    · rcases List.mem_cons.1 h with h | h
      · exact .inl h
      · exact .inr (List.mem_cons_of_mem _ h)
    · rcases List.mem_cons.1 h with h | h
      · exact .inr (by simp [h])
      · rcases ih h with h | h
        · exact .inl h
        · exact .inr (List.mem_cons_of_mem _ h)

/-- A write keeps the canonical form. -/
theorem Memory.writeByte_wf {m : Memory} (a : Nat) (b : Byte) (h : m.wf) : (m.writeByte a b).wf := by
  induction m with
  | nil => simp [Memory.writeByte, Memory.wf]
  | cons c rest ih =>
    obtain ⟨k, v⟩ := c
    have hrest := List.pairwise_cons.1 h
    unfold Memory.writeByte
    split_ifs with h1 h2
    · refine List.pairwise_cons.2 ⟨fun x hx => ?_, h⟩
      rcases List.mem_cons.1 hx with rfl | hx
      · exact h1
      · exact Nat.lt_trans h1 (hrest.1 x hx)
    · subst h2
      exact List.pairwise_cons.2 ⟨hrest.1, hrest.2⟩
    · refine List.pairwise_cons.2 ⟨fun x hx => ?_, ih hrest.2⟩
      rcases Memory.mem_writeByte hx with rfl | hx
      · show k < a
        omega
      · exact hrest.1 x hx

theorem Memory.readByte_lt {m : Memory} {k : Nat} (h : ∀ x ∈ m, k < x.1) {a : Nat} (ha : a ≤ k) : m.readByte a = none := by
  induction m with
  | nil => rfl
  | cons c rest ih =>
    obtain ⟨j, v⟩ := c
    have hj : k < j := h _ (List.mem_cons_self ..)
    have : j ≠ a := by omega
    simp [Memory.readByte, this, ih fun x hx => h x (List.mem_cons_of_mem _ hx)]

/-- Two memories in canonical form that read alike are equal: the form is canonical. -/
theorem Memory.ext_of_wf {m n : Memory} (hm : m.wf) (hn : n.wf) (h : ∀ a, m.readByte a = n.readByte a) : m = n := by
  induction m generalizing n with
  | nil =>
    cases n with
    | nil => rfl
    | cons c rest =>
      have := h c.1
      simp [Memory.readByte] at this
  | cons c rest ih =>
    obtain ⟨k, v⟩ := c
    cases n with
    | nil =>
      have := h k
      simp [Memory.readByte] at this
    | cons d rest' =>
      obtain ⟨j, u⟩ := d
      have hm' := List.pairwise_cons.1 hm
      have hn' := List.pairwise_cons.1 hn
      have hkj : k = j := by
        rcases Nat.lt_trichotomy k j with hlt | heq | hgt
        · have h1 := h k
          have h2 : Memory.readByte rest' k = none := Memory.readByte_lt hn'.1 (Nat.le_of_lt hlt)
          simp [Memory.readByte, h2, Nat.ne_of_gt hlt] at h1
        · exact heq
        · have h1 := h j
          have h2 : Memory.readByte rest j = none := Memory.readByte_lt hm'.1 (Nat.le_of_lt hgt)
          simp [Memory.readByte, h2, Nat.ne_of_gt hgt] at h1
      subst hkj
      have hv : v = u := by simpa [Memory.readByte] using h k
      subst hv
      refine congrArg _ (ih hm'.2 hn'.2 fun a => ?_)
      by_cases ha : k = a
      · subst ha
        rw [Memory.readByte_lt hm'.1 le_rfl, Memory.readByte_lt hn'.1 le_rfl]
      · simpa [Memory.readByte, ha] using h a

end Sys2Proof.Machine
end

