-- ==== Sys2Proof/Laws/State.lean ====
section
/-! SUPPORT. The fields of the states that the shared operations make: one lemma per field per update. -/

namespace Sys2Proof.Machine

variable (s : State) (out : List Byte) (st : Status) (val : Word) (p : Phase) (nbits w : Nat)

@[simp] theorem State.answer_crc_r : (s.answer out st val).crc_r = s.crc_r := rfl
@[simp] theorem State.answer_ck_type : (s.answer out st val).ck_type = s.ck_type := rfl
@[simp] theorem State.answer_ck_len : (s.answer out st val).ck_len = s.ck_len := rfl
@[simp] theorem State.answer_ck_crc : (s.answer out st val).ck_crc = s.ck_crc := rfl
@[simp] theorem State.answer_fill : (s.answer out st val).fill = s.fill := rfl
@[simp] theorem State.answer_buf : (s.answer out st val).buf = s.buf := rfl
@[simp] theorem State.answer_ph : (s.answer out st val).ph = s.ph := rfl
@[simp] theorem State.answer_cnt : (s.answer out st val).cnt = s.cnt := rfl
@[simp] theorem State.answer_ck_v : (s.answer out st val).ck_v = s.ck_v := rfl
@[simp] theorem State.answer_ty_bad : (s.answer out st val).ty_bad = s.ty_bad := rfl
@[simp] theorem State.answer_rx_m : (s.answer out st val).rx_m = s.rx_m := rfl
@[simp] theorem State.answer_err : (s.answer out st val).err = s.err := rfl
@[simp] theorem State.answer_bufBytes : (s.answer out st val).bufBytes = s.bufBytes := rfl
@[simp] theorem State.answer_inbox : (s.answer out st val).inbox = s.inbox := rfl
@[simp] theorem State.answer_replies : (s.answer out st val).replies = s.replies ++ [⟨out, st, val⟩] := rfl

@[simp] theorem State.restart_crc_r : (s.restart p).crc_r = s.crc_r := rfl
@[simp] theorem State.restart_ck_type : (s.restart p).ck_type = s.ck_type := rfl
@[simp] theorem State.restart_ck_len : (s.restart p).ck_len = s.ck_len := rfl
@[simp] theorem State.restart_ck_crc : (s.restart p).ck_crc = s.ck_crc := rfl
@[simp] theorem State.restart_fill : (s.restart p).fill = 0#32 := rfl
@[simp] theorem State.restart_buf : (s.restart p).buf = s.buf := rfl
@[simp] theorem State.restart_ph : (s.restart p).ph = p := rfl
@[simp] theorem State.restart_cnt : (s.restart p).cnt = 0#3 := rfl
@[simp] theorem State.restart_ck_v : (s.restart p).ck_v = false := rfl
@[simp] theorem State.restart_ty_bad : (s.restart p).ty_bad = false := rfl
@[simp] theorem State.restart_rx_m : (s.restart p).rx_m = s.rx_m := rfl
@[simp] theorem State.restart_err : (s.restart p).err = .ok := rfl
@[simp] theorem State.restart_bufBytes : (s.restart p).bufBytes = s.bufBytes := rfl
@[simp] theorem State.restart_inbox : (s.restart p).inbox = s.inbox := rfl
@[simp] theorem State.restart_replies : (s.restart p).replies = s.replies := rfl

@[simp] theorem State.resetEvent_crc_r : s.resetEvent.crc_r = 0xFFFFFFFF#32 := rfl
@[simp] theorem State.resetEvent_ck_type : s.resetEvent.ck_type = 0#32 := rfl
@[simp] theorem State.resetEvent_ck_len : s.resetEvent.ck_len = 0#32 := rfl
@[simp] theorem State.resetEvent_ck_crc : s.resetEvent.ck_crc = 0#32 := rfl
@[simp] theorem State.resetEvent_fill : s.resetEvent.fill = 0#32 := rfl
@[simp] theorem State.resetEvent_buf : s.resetEvent.buf = s.buf := rfl
@[simp] theorem State.resetEvent_ph : s.resetEvent.ph = .idle := rfl
@[simp] theorem State.resetEvent_cnt : s.resetEvent.cnt = 0#3 := rfl
@[simp] theorem State.resetEvent_ck_v : s.resetEvent.ck_v = false := rfl
@[simp] theorem State.resetEvent_ty_bad : s.resetEvent.ty_bad = false := rfl
@[simp] theorem State.resetEvent_rx_m : s.resetEvent.rx_m = false := rfl
@[simp] theorem State.resetEvent_err : s.resetEvent.err = .ok := rfl
@[simp] theorem State.resetEvent_bufBytes : s.resetEvent.bufBytes = s.bufBytes := rfl
@[simp] theorem State.resetEvent_inbox : s.resetEvent.inbox = s.inbox := rfl
@[simp] theorem State.resetEvent_replies : s.resetEvent.replies = s.replies := rfl

@[simp] theorem State.withFetchWord_crc_r : (s.withFetchWord nbits w).crc_r = s.crc_r := rfl
@[simp] theorem State.withFetchWord_ck_type : (s.withFetchWord nbits w).ck_type = s.ck_type := rfl
@[simp] theorem State.withFetchWord_ck_len : (s.withFetchWord nbits w).ck_len = s.ck_len := rfl
@[simp] theorem State.withFetchWord_ck_crc : (s.withFetchWord nbits w).ck_crc = s.ck_crc := rfl
@[simp] theorem State.withFetchWord_fill : (s.withFetchWord nbits w).fill = s.fill := rfl
@[simp] theorem State.withFetchWord_buf : (s.withFetchWord nbits w).buf = s.buf := rfl
@[simp] theorem State.withFetchWord_ph : (s.withFetchWord nbits w).ph = s.ph := rfl
@[simp] theorem State.withFetchWord_cnt : (s.withFetchWord nbits w).cnt = s.cnt := rfl
@[simp] theorem State.withFetchWord_ck_v : (s.withFetchWord nbits w).ck_v = s.ck_v := rfl
@[simp] theorem State.withFetchWord_ty_bad : (s.withFetchWord nbits w).ty_bad = s.ty_bad := rfl
@[simp] theorem State.withFetchWord_rx_m : (s.withFetchWord nbits w).rx_m = s.rx_m := rfl
@[simp] theorem State.withFetchWord_err : (s.withFetchWord nbits w).err = s.err := rfl
@[simp] theorem State.withFetchWord_bufBytes : (s.withFetchWord nbits w).bufBytes = s.bufBytes := rfl
@[simp] theorem State.withFetchWord_inbox : (s.withFetchWord nbits w).inbox = .command (BitVec.ofNat 40 (w % 2 ^ nbits)) :: s.inbox := rfl
@[simp] theorem State.withFetchWord_replies : (s.withFetchWord nbits w).replies = s.replies := rfl

end Sys2Proof.Machine
end

