-- ==== Sys2Proof/Laws/Ops.lean ====
section
/-! SUPPORT. What each shared operation can do, said once: the raises, the tests that come first, the buffer accesses, and the bytes
below an index. -/

namespace Sys2Proof.Machine

variable {s t : State} {k : Result}

/-! ### Answers and raises -/

@[simp] theorem respondOk_eq (val : Word) (s : State) : respondOk val s = .next (s.answer [] .ok val) := rfl

@[simp] theorem emitOk_eq (out : List Byte) (s : State) : emitOk out s = .next (s.answer out .ok 0#32) := rfl

@[simp] theorem raise_refuse (st : Status) (s : State) : raise (.refuse st) s = .next (s.answer [] st 0#32) := rfl

@[simp] theorem raise_fail (st : Status) (s : State) :
    raise (.fail st) s = .next (State.answer { s with ph := .fail, err := st, ck_v := false } [] st 0#32) := rfl

@[simp] theorem raise_fatal (s : State) :
    raise .fatal s =
      .next (State.answer { s with ph := .dead, err := .fatalLength, ck_v := false } [] .fatalLength 0#32) := rfl

/-! ### The tests that come first -/

theorem unlessDead_live (h : s.ph ≠ .dead) : unlessDead s k = k := if_neg h

theorem unlessDead_dead (h : s.ph = .dead) : unlessDead s k = .next (s.answer [] .fatalLength 0#32) := by
  simp [unlessDead, h]

/-- A command that goes on in `DEAD` was refused; outside it the test does nothing. -/
theorem unlessDead_eq_next (h : unlessDead s k = .next t) :
    (s.ph = .dead ∧ t = s.answer [] .fatalLength 0#32) ∨ (s.ph ≠ .dead ∧ k = .next t) := by
  by_cases hd : s.ph = .dead
  · rw [unlessDead_dead hd] at h
    exact .inl ⟨hd, (Host.Outcome.next.inj h).symm⟩
  · exact .inr ⟨hd, by rwa [unlessDead_live hd] at h⟩

theorem onlyInAsm_eq_next (h : onlyInAsm s k = .next t) :
    (s.ph ≠ .asm ∧ t = s.answer [] .badPhase 0#32) ∨ (s.ph = .asm ∧ k = .next t) := by
  by_cases hp : s.ph = .asm
  · exact .inr ⟨hp, by simpa [onlyInAsm, hp] using h⟩
  · exact .inl ⟨hp, by simpa [onlyInAsm, hp, eq_comm] using h⟩

theorem onlyIfSlotValid_eq_next (h : onlyIfSlotValid s k = .next t) :
    (s.ck_v = false ∧ t = s.answer [] .badPhase 0#32) ∨ (s.ck_v = true ∧ k = .next t) := by
  cases hv : s.ck_v
  · exact .inl ⟨rfl, by simpa [onlyIfSlotValid, hv, eq_comm] using h⟩
  · exact .inr ⟨rfl, by simpa [onlyIfSlotValid, hv] using h⟩

theorem Phase.usesGenerator_iff (p : Phase) : p.usesGenerator = true ↔ p = .rxType ∨ p = .rxData ∨ p = .rxCrc := by
  cases p <;> decide

theorem unlessGeneratorBusy_eq_next (h : unlessGeneratorBusy s k = .next t) :
    (s.ph.usesGenerator = true ∧ t = s.answer [] .badPhase 0#32) ∨ (s.ph.usesGenerator = false ∧ k = .next t) := by
  cases hg : s.ph.usesGenerator
  · exact .inr ⟨rfl, by simpa [unlessGeneratorBusy, hg] using h⟩
  · exact .inl ⟨rfl, by simpa [unlessGeneratorBusy, hg, eq_comm] using h⟩

/-! ### Buffer accesses -/

@[simp] theorem withAccess_ok {α : Type} (a : α) (f : α → Result) : withAccess (.ok a) f = f a := rfl

@[simp] theorem withAccess_error {α : Type} (e : Fault) (f : α → Result) : withAccess (.error e) f = .fault e := rfl

theorem withAccess_eq_next {α : Type} {x : Except Fault α} {f : α → Result} (h : withAccess x f = .next t) :
    ∃ a, x = .ok a ∧ f a = .next t := by
  cases x with
  | ok a => exact ⟨a, rfl, h⟩
  | error e => exact absurd h (by simp)

/-- `MemRead` has a value exactly below `BUF_BYTES` where something has been written (R51). -/
theorem memRead_eq_ok {a : Nat} {b : Byte} :
    memRead s a = .ok b ↔ a < s.bufBytes.toNat ∧ s.buf.readByte a = some b := by
  unfold memRead
  split_ifs with h
  · cases hb : s.buf.readByte a <;> simp [h]
  · simp [h]

/-- A range of reads has a value exactly when each has; the bytes come in ascending order. -/
theorem memReadRange_eq_ok {a n : Nat} {d : List Byte} :
    memReadRange s a n = .ok d ↔
      d.length = n ∧ ∀ j < n, a + j < s.bufBytes.toNat ∧ s.buf.readByte (a + j) = d[j]? := by
  induction n generalizing a d with
  | zero => cases d <;> simp [memReadRange]
  | succ n ih =>
    unfold memReadRange
    constructor
    · intro h
      cases hb : memRead s a with
      | error f => simp [hb] at h
      | ok b =>
        cases hr : memReadRange s (a + 1) n with
        | error f => simp [hb, hr] at h
        | ok bs =>
          simp only [hb, hr, Except.ok.injEq] at h
          subst h
          obtain ⟨hlen, hall⟩ := ih.1 hr
          refine ⟨by simp [hlen], fun j hj => ?_⟩
          cases j with
          | zero => simpa using memRead_eq_ok.1 hb
          | succ j => simpa [Nat.add_assoc, Nat.add_comm 1 j] using hall j (by omega)
    · rintro ⟨hlen, hall⟩
      cases d with
      | nil => simp at hlen
      | cons b bs =>
        have h0 := hall 0 (by omega)
        have hb : memRead s a = .ok b := memRead_eq_ok.2 (by simpa using h0)
        have hr : memReadRange s (a + 1) n = .ok bs := by
          refine ih.2 ⟨by simpa using hlen, fun j hj => ?_⟩
          simpa [Nat.add_assoc, Nat.add_comm 1 j] using hall (j + 1) (by omega)
        simp [hb, hr]

/-- `MemWrite` is defined exactly below `BUF_BYTES` and changes the buffer only (R51). -/
theorem memWrite_eq_ok {a : Nat} {b : Byte} :
    memWrite s a b = .ok t ↔ a < s.bufBytes.toNat ∧ t = { s with buf := s.buf.writeByte a b } := by
  unfold memWrite
  split_ifs with h <;> simp [h, eq_comm]

/-! ### The bytes below an index -/

theorem State.holds_nil (s : State) : s.holds [] := by simp [State.holds]

/-- What `holds` says of the bytes determines them. -/
theorem State.bytes_of_holds {d : List Byte} (h : s.holds d) : s.bytes d.length = d := by
  unfold State.bytes
  have : (List.range d.length).filterMap s.buf.readByte = (List.range d.length).filterMap fun a => d[a]? :=
    List.filterMap_congr fun a ha => h a (List.mem_range.1 ha)
  rw [this]
  clear this h
  induction d using List.reverseRecOn with
  | nil => rfl
  | append_singleton d b ih =>
    rw [List.length_append, List.length_singleton, List.range_succ, List.filterMap_append]
    have : (List.range d.length).filterMap (fun a => (d ++ [b])[a]?) = (List.range d.length).filterMap fun a => d[a]? :=
      List.filterMap_congr fun a ha => List.getElem?_append_left (List.mem_range.1 ha)
    simp [this, ih]

theorem State.bytes_zero (s : State) : s.bytes 0 = [] := rfl

theorem State.bytes_succ_of_some {n : Nat} {b : Byte} (h : s.buf.readByte n = some b) :
    s.bytes (n + 1) = s.bytes n ++ [b] := by
  simp [State.bytes, List.range_succ, List.filterMap_append, h]

/-- The bytes of a written part: as many as the index says, and each where it stands. -/
theorem State.bytes_of_written {n : Nat} (h : s.written n) : (s.bytes n).length = n ∧ s.holds (s.bytes n) := by
  induction n with
  | zero => exact ⟨rfl, State.holds_nil s⟩
  | succ n ih =>
    obtain ⟨hlen, hh⟩ := ih fun a ha => h a (by omega)
    obtain ⟨b, hb⟩ := Option.isSome_iff_exists.1 (h n (by omega))
    rw [State.bytes_succ_of_some hb]
    refine ⟨by simp [hlen], fun a ha => ?_⟩
    rw [List.length_append, List.length_singleton, hlen] at ha
    rcases Nat.lt_succ_iff_lt_or_eq.1 ha with ha | rfl
    · rw [List.getElem?_append_left (by omega)]
      exact hh a (by omega)
    · rw [hb, List.getElem?_append_right (by omega)]
      simp [hlen]

/-- The bytes below an index depend on nothing from the index up. -/
theorem State.bytes_congr {n : Nat} (h : ∀ a < n, t.buf.readByte a = s.buf.readByte a) : t.bytes n = s.bytes n :=
  List.filterMap_congr fun a ha => h a (List.mem_range.1 ha)

theorem State.written_congr {n : Nat} (h : ∀ a < n, t.buf.readByte a = s.buf.readByte a) (hs : s.written n) :
    t.written n := fun a ha => by rw [h a ha]; exact hs a ha

theorem State.holds_congr {d : List Byte} (h : ∀ a < d.length, t.buf.readByte a = s.buf.readByte a) (hs : s.holds d) :
    t.holds d := fun a ha => by rw [h a ha]; exact hs a ha

/-- A range read of the written part below the capacity gives its bytes. -/
theorem memReadRange_of_holds {d : List Byte} (hh : s.holds d) (hb : d.length ≤ s.bufBytes.toNat) :
    memReadRange s 0 d.length = .ok d := by
  refine memReadRange_eq_ok.2 ⟨rfl, fun j hj => ?_⟩
  rw [Nat.zero_add]
  exact ⟨by omega, hh j hj⟩

end Sys2Proof.Machine
end

