-- ==== Sys2Proof/Laws/Effect.lean ====
section
/-! SUPPORT. What a command can do, said once: every path of every meaning that answers a next state, with its guards, the state it
writes and the reply it gives. Claims about `exec` go by cases on it instead of unfolding the meanings. -/

namespace Sys2Proof.Machine

/-- `Effect s i c out st val`: performing `i` in `s` writes the state `c` and answers `st`, `val`, after emitting `out`. -/
inductive Effect (s : State) : Instr → State → List Byte → Status → Word → Prop where
  | dead (i : Instr) (h : s.ph = .dead) : Effect s i s [] .fatalLength 0#32
  -- refusals (R181)
  | initBusy (h : s.ph.usesGenerator = true) : Effect s .crcInit s [] .badPhase 0#32
  | byteBusy (b : Byte) (h : s.ph.usesGenerator = true) : Effect s (.crcByte b) s [] .badPhase 0#32
  | newNotAlpha (ty : Word) (h : s.ph ≠ .dead) (ha : tyAlpha ty = false) : Effect s (.ckNew ty) s [] .invalidChunkType 0#32
  | pushNotAsm (b : Byte) (h : s.ph ≠ .dead) (hp : s.ph ≠ .asm) : Effect s (.ckPush b) s [] .badPhase 0#32
  | buildNotAsm (h : s.ph ≠ .dead) (hp : s.ph ≠ .asm) : Effect s .ckBuild s [] .badPhase 0#32
  | slotInvalid (i : Instr) (hi : i ∈ [Instr.ckLen, .ckType, .ckCrc, .ckFlags, .ckEmit] ∨ ∃ k, i = .ckData k)
      (h : s.ph ≠ .dead) (hv : s.ck_v = false) : Effect s i s [] .badPhase 0#32
  | badIndex (k : Word) (h : s.ph ≠ .dead) (hv : s.ck_v = true) (hk : s.ck_len ≤ k) :
      Effect s (.ckData k) s [] .badIndex 0#32
  | byteNoSession (b : Byte) (hp : s.ph = .idle ∨ s.ph = .asm) : Effect s (.rxByte b) s [] .badPhase 0#32
  | endNoSession (hp : s.ph = .idle ∨ s.ph = .asm) : Effect s .rxEnd s [] .badPhase 0#32
  | byteFailed (b : Byte) (hp : s.ph = .fail) : Effect s (.rxByte b) s [] s.err 0#32
  | endFailed (hp : s.ph = .fail) : Effect s .rxEnd s [] s.err 0#32
  -- reads (R60)
  | nop (h : s.ph ≠ .dead) : Effect s .nop s [] .ok 0#32
  | stRead (h : s.ph ≠ .dead) : Effect s .stRead s [] .ok (statusWord s)
  | crcRead (h : s.ph ≠ .dead) : Effect s .crcRead s [] .ok (s.crc_r ^^^ Config.crcXorOut)
  | tyCheck (ty : Word) (h : s.ph ≠ .dead) : Effect s (.tyCheck ty) s [] .ok (tyFlags ty)
  | ckLen (h : s.ph ≠ .dead) (hv : s.ck_v = true) : Effect s .ckLen s [] .ok s.ck_len
  | ckType (h : s.ph ≠ .dead) (hv : s.ck_v = true) : Effect s .ckType s [] .ok s.ck_type
  | ckCrc (h : s.ph ≠ .dead) (hv : s.ck_v = true) : Effect s .ckCrc s [] .ok s.ck_crc
  | ckFlags (h : s.ph ≠ .dead) (hv : s.ck_v = true) : Effect s .ckFlags s [] .ok (tyFlags s.ck_type)
  | ckData (k : Word) (b : Byte) (h : s.ph ≠ .dead) (hv : s.ck_v = true) (hk : k < s.ck_len)
      (hb : k < s.bufBytes) (hr : s.buf.readByte k.toNat = some b) : Effect s (.ckData k) s [] .ok (b.setWidth 32)
  | ckEmit (d : List Byte) (h : s.ph ≠ .dead) (hv : s.ck_v = true) (hd : memReadRange s 0 s.ck_len.toNat = .ok d) :
      Effect s .ckEmit s (be32 s.ck_len ++ typeBytes s.ck_type ++ d ++ be32 s.ck_crc) .ok 0#32
  | sigEmit (h : s.ph ≠ .dead) : Effect s .sigEmit s Config.sig.toList .ok 0#32
  -- writes
  | ckClear (h : s.ph ≠ .dead) : Effect s .ckClear (s.restart .idle) [] .ok 0#32
  | crcInit (h : s.ph ≠ .dead) (hg : s.ph.usesGenerator = false) :
      Effect s .crcInit { s with crc_r := Config.crcInit } [] .ok 0#32
  | crcByte (b : Byte) (h : s.ph ≠ .dead) (hg : s.ph.usesGenerator = false) :
      Effect s (.crcByte b) { s with crc_r := crcStep s.crc_r b } [] .ok 0#32
  | ckNew (ty : Word) (h : s.ph ≠ .dead) (ha : tyAlpha ty = true) :
      Effect s (.ckNew ty) { s.restart .asm with ck_type := ty } [] .ok 0#32
  | pushFull (b : Byte) (hp : s.ph = .asm) (hf : s.fill = s.bufBytes) :
      Effect s (.ckPush b) { s with ph := .dead, err := .fatalLength, ck_v := false } [] .fatalLength 0#32
  | push (b : Byte) (hp : s.ph = .asm) (hf : s.fill < s.bufBytes) :
      Effect s (.ckPush b) { s with buf := s.buf.writeByte s.fill.toNat b, fill := s.fill + 1#32 } [] .ok 0#32
  | build (d : List Byte) (hp : s.ph = .asm) (hd : memReadRange s 0 s.fill.toNat = .ok d) :
      Effect s .ckBuild
        { s with ck_len := s.fill, crc_r := crc32 (typeBytes s.ck_type ++ d) ^^^ Config.crcXorOut,
                 ck_crc := crc32 (typeBytes s.ck_type ++ d), ck_v := true, ph := .idle }
        [] .ok (crc32 (typeBytes s.ck_type ++ d))
  | rxBegin (m : Bool) (h : s.ph ≠ .dead) :
      Effect s (.rxBegin m) { s.restart (if m then .rxSig else .rxLen) with rx_m := m } [] .ok 0#32
  | sigBad (b : Byte) (hp : s.ph = .rxSig) (hb : b ≠ Config.sigByte s.cnt) :
      Effect s (.rxByte b) { s with ph := .fail, err := .badSignature, ck_v := false } [] .badSignature 0#32
  | sigLast (b : Byte) (hp : s.ph = .rxSig) (hb : b = Config.sigByte s.cnt) (hc : s.cnt = 7#3) :
      Effect s (.rxByte b) { s with ck_v := false, ph := .rxLen, cnt := 0#3 } [] .ok 0#32
  | sigNext (b : Byte) (hp : s.ph = .rxSig) (hb : b = Config.sigByte s.cnt) (hc : s.cnt ≠ 7#3) :
      Effect s (.rxByte b) { s with ck_v := false, cnt := s.cnt + 1#3 } [] .ok 0#32
  | lenNext (b : Byte) (hp : s.ph = .rxLen) (hc : s.cnt ≠ 3#3) :
      Effect s (.rxByte b) { s with ck_v := false, ck_len := shiftIn s.ck_len b, cnt := s.cnt + 1#3 } [] .ok 0#32
  | lenLast (b : Byte) (hp : s.ph = .rxLen) (hc : s.cnt = 3#3) (hl : shiftIn s.ck_len b ≤ s.bufBytes) :
      Effect s (.rxByte b) { s with ck_v := false, ck_len := shiftIn s.ck_len b, cnt := 0#3, ph := .rxType } [] .ok 0#32
  | lenBad (b : Byte) (hp : s.ph = .rxLen) (hc : s.cnt = 3#3) (hl : s.bufBytes < shiftIn s.ck_len b) :
      Effect s (.rxByte b)
        { s with ck_len := shiftIn s.ck_len b, cnt := 0#3, ph := .fail, err := .unsupportedLength, ck_v := false }
        [] .unsupportedLength 0#32
  | typeNext (b : Byte) (hp : s.ph = .rxType) (hc : s.cnt ≠ 3#3) :
      Effect s (.rxByte b)
        { s with ck_v := false, ck_type := shiftIn s.ck_type b,
                 crc_r := crcStep (if s.cnt = 0#3 then Config.crcInit else s.crc_r) b, cnt := s.cnt + 1#3 } [] .ok 0#32
  | typeLast (b : Byte) (hp : s.ph = .rxType) (hc : s.cnt = 3#3) :
      Effect s (.rxByte b)
        { s with ck_v := false, ck_type := shiftIn s.ck_type b, crc_r := crcStep s.crc_r b,
                 ty_bad := !tyValid (shiftIn s.ck_type b), cnt := 0#3, fill := 0#32,
                 ph := if s.ck_len = 0#32 then .rxCrc else .rxData } [] .ok 0#32
  | data (b : Byte) (hp : s.ph = .rxData) (hf : s.fill.toNat < s.bufBytes.toNat) :
      Effect s (.rxByte b)
        { s with ck_v := false, buf := s.buf.writeByte s.fill.toNat b, crc_r := crcStep s.crc_r b,
                 fill := s.fill + 1#32, ph := if s.fill + 1#32 = s.ck_len then .rxCrc else .rxData } [] .ok 0#32
  | crcNext (b : Byte) (hp : s.ph = .rxCrc) (hc : s.cnt ≠ 3#3) :
      Effect s (.rxByte b) { s with ck_v := false, ck_crc := shiftIn s.ck_crc b, cnt := s.cnt + 1#3 } [] .ok 0#32
  | crcBadType (b : Byte) (hp : s.ph = .rxCrc) (hc : s.cnt = 3#3) (ht : s.ty_bad = true) :
      Effect s (.rxByte b)
        { s with ck_crc := shiftIn s.ck_crc b, ph := .fail, err := .invalidChunkType, ck_v := false }
        [] .invalidChunkType 0#32
  | crcBad (b : Byte) (hp : s.ph = .rxCrc) (hc : s.cnt = 3#3) (ht : s.ty_bad = false)
      (hx : shiftIn s.ck_crc b ≠ s.crc_r ^^^ Config.crcXorOut) :
      Effect s (.rxByte b)
        { s with ck_crc := shiftIn s.ck_crc b, ph := .fail, err := .crcMismatch, ck_v := false } [] .crcMismatch 0#32
  | crcGood (b : Byte) (hp : s.ph = .rxCrc) (hc : s.cnt = 3#3) (ht : s.ty_bad = false)
      (hx : shiftIn s.ck_crc b = s.crc_r ^^^ Config.crcXorOut) :
      Effect s (.rxByte b)
        { s with ck_crc := shiftIn s.ck_crc b, ck_v := true, cnt := 0#3, ph := if s.rx_m then .rxLen else .idle }
        [] .ok 1#32
  | endSig (hp : s.ph = .rxSig) :
      Effect s .rxEnd { s with ph := .fail, err := .badSignature, ck_v := false } [] .badSignature 0#32
  | endOk (hp : s.ph = .rxLen) (hc : s.cnt = 0#3) (hm : s.rx_m = true) :
      Effect s .rxEnd { s with ph := .idle } [] .ok 0#32
  | endShort (hp : s.ph = .rxLen ∧ ¬(s.cnt = 0#3 ∧ s.rx_m = true) ∨ s.ph = .rxType ∨ s.ph = .rxData ∨ s.ph = .rxCrc) :
      Effect s .rxEnd { s with ph := .fail, err := .truncatedChunk, ck_v := false } [] .truncatedChunk 0#32

/-- The remainder after type and data, by the CRC of both. -/
theorem crcFold_append_eq (m n : List Byte) :
    crcFold (crcFold Config.crcInit m) n = crc32 (m ++ n) ^^^ Config.crcXorOut := by
  simp [crc32, crcFold, List.foldl_append]

variable {s t : State}

/-- The slot test of the accessors, as an effect. -/
theorem effect_of_accessor {i : Instr} {k : Result}
    (hi : i ∈ [Instr.ckLen, .ckType, .ckCrc, .ckFlags, .ckEmit] ∨ ∃ k, i = .ckData k)
    (h : unlessDead s (onlyIfSlotValid s k) = .next t) :
    (∃ c out st val, Effect s i c out st val ∧ t = c.answer out st val) ∨ (s.ph ≠ .dead ∧ s.ck_v = true ∧ k = .next t) := by
  rcases unlessDead_eq_next h with ⟨hd, rfl⟩ | ⟨hd, h⟩
  · exact .inl ⟨_, _, _, _, .dead i hd, rfl⟩
  · rcases onlyIfSlotValid_eq_next h with ⟨hv, rfl⟩ | ⟨hv, h⟩
    · exact .inl ⟨_, _, _, _, .slotInvalid i hi hd hv, rfl⟩
    · exact .inr ⟨hd, hv, h⟩

theorem effect_of_rxByte {b : Byte} (h : exec (.rxByte b) s = .next t) :
    ∃ c out st val, Effect s (.rxByte b) c out st val ∧ t = c.answer out st val := by
  unfold exec execRxByte at h
  cases hp : s.ph <;> simp only [hp, raise_refuse, Host.Outcome.next.injEq] at h
  case dead => exact ⟨_, _, _, _, .dead _ hp, h.symm⟩
  case idle => exact ⟨_, _, _, _, .byteNoSession b (.inl hp), h.symm⟩
  case asm => exact ⟨_, _, _, _, .byteNoSession b (.inr hp), h.symm⟩
  case fail => exact ⟨_, _, _, _, .byteFailed b hp, h.symm⟩
  case rxSig =>
    unfold rxSigByte at h
    split_ifs at h with hb hc
    · exact ⟨_, _, _, _, .sigBad b hp hb, (Host.Outcome.next.inj h).symm⟩
    · exact ⟨_, _, _, _, .sigLast b hp (not_not.1 hb) hc, (Host.Outcome.next.inj h).symm⟩
    · exact ⟨_, _, _, _, .sigNext b hp (not_not.1 hb) hc, by rw [← hp] at h; exact (Host.Outcome.next.inj h).symm⟩
  case rxLen =>
    by_cases hc : s.cnt = 3#3
    · by_cases hl : s.bufBytes < shiftIn s.ck_len b
      · simp only [rxLenByte, hc, hl, if_true, raise_fail, Host.Outcome.next.injEq] at h
        exact ⟨_, _, _, _, .lenBad b hp hc hl, h.symm⟩
      · simp only [rxLenByte, hc, hl, if_true, if_false, respondOk_eq, Host.Outcome.next.injEq] at h
        exact ⟨_, _, _, _, .lenLast b hp hc (BitVec.not_lt.1 hl), h.symm⟩
    · simp only [rxLenByte, hc, if_false, respondOk_eq, Host.Outcome.next.injEq] at h
      exact ⟨_, _, _, _, .lenNext b hp hc, by rw [← h, hp]⟩
  case rxType =>
    by_cases hc : s.cnt = 3#3
    · have hz : ¬ (3#3 : BitVec 3) = 0#3 := by decide
      simp only [rxTypeByte, hc, hz, if_true, if_false, respondOk_eq, Host.Outcome.next.injEq] at h
      exact ⟨_, _, _, _, .typeLast b hp hc, h.symm⟩
    · simp only [rxTypeByte, hc, if_false, respondOk_eq, Host.Outcome.next.injEq] at h
      exact ⟨_, _, _, _, .typeNext b hp hc, by rw [← h, hp]⟩
  case rxData =>
    unfold rxDataByte at h
    obtain ⟨s', hw, h⟩ := withAccess_eq_next h
    obtain ⟨hlt, rfl⟩ := memWrite_eq_ok.1 hw
    exact ⟨_, _, _, _, .data b hp hlt, (Host.Outcome.next.inj h).symm⟩
  case rxCrc =>
    by_cases hc : s.cnt = 3#3
    · unfold rxCrcByte at h
      rw [if_pos hc] at h
      by_cases ht : s.ty_bad = true
      · rw [if_pos ht] at h
        exact ⟨_, _, _, _, .crcBadType b hp hc ht, (Host.Outcome.next.inj h).symm⟩
      · rw [if_neg ht] at h
        by_cases hx : shiftIn s.ck_crc b = s.crc_r ^^^ Config.crcXorOut
        · rw [if_neg (not_not.2 hx)] at h
          exact ⟨_, _, _, _, .crcGood b hp hc (Bool.eq_false_iff.2 ht) hx, (Host.Outcome.next.inj h).symm⟩
        · rw [if_pos hx] at h
          exact ⟨_, _, _, _, .crcBad b hp hc (Bool.eq_false_iff.2 ht) hx, (Host.Outcome.next.inj h).symm⟩
    · simp only [rxCrcByte, hc, if_false, respondOk_eq, Host.Outcome.next.injEq] at h
      exact ⟨_, _, _, _, .crcNext b hp hc, by rw [← h, hp]⟩

theorem effect_of_rxEnd (h : exec .rxEnd s = .next t) :
    ∃ c out st val, Effect s .rxEnd c out st val ∧ t = c.answer out st val := by
  unfold exec execRxEnd at h
  cases hp : s.ph <;> simp only [hp, raise_refuse, raise_fail, Host.Outcome.next.injEq] at h
  case dead => exact ⟨_, _, _, _, .dead _ hp, h.symm⟩
  case idle => exact ⟨_, _, _, _, .endNoSession (.inl hp), h.symm⟩
  case asm => exact ⟨_, _, _, _, .endNoSession (.inr hp), h.symm⟩
  case fail => exact ⟨_, _, _, _, .endFailed hp, h.symm⟩
  case rxSig => exact ⟨_, _, _, _, .endSig hp, h.symm⟩
  case rxLen =>
    split_ifs at h with hc
    · exact ⟨_, _, _, _, .endOk hp hc.1 hc.2, (Host.Outcome.next.inj h).symm⟩
    · exact ⟨_, _, _, _, .endShort (.inl ⟨hp, hc⟩), (Host.Outcome.next.inj h).symm⟩
  case rxType => exact ⟨_, _, _, _, .endShort (.inr (.inl hp)), h.symm⟩
  case rxData => exact ⟨_, _, _, _, .endShort (.inr (.inr (.inl hp))), h.symm⟩
  case rxCrc => exact ⟨_, _, _, _, .endShort (.inr (.inr (.inr hp))), h.symm⟩

/-- The inversion of `exec`: a command that answers a next state did one of the effects. -/
theorem exec_effect {i : Instr} (h : exec i s = .next t) :
    ∃ c out st val, Effect s i c out st val ∧ t = c.answer out st val := by
  cases i with
  | nop =>
    rcases unlessDead_eq_next h with ⟨hd, rfl⟩ | ⟨hd, h⟩
    · exact ⟨_, _, _, _, .dead _ hd, rfl⟩
    · exact ⟨_, _, _, _, .nop hd, (Host.Outcome.next.inj h).symm⟩
  | stRead =>
    rcases unlessDead_eq_next h with ⟨hd, rfl⟩ | ⟨hd, h⟩
    · exact ⟨_, _, _, _, .dead _ hd, rfl⟩
    · exact ⟨_, _, _, _, .stRead hd, (Host.Outcome.next.inj h).symm⟩
  | ckClear =>
    rcases unlessDead_eq_next h with ⟨hd, rfl⟩ | ⟨hd, h⟩
    · exact ⟨_, _, _, _, .dead _ hd, rfl⟩
    · exact ⟨_, _, _, _, .ckClear hd, (Host.Outcome.next.inj h).symm⟩
  | crcInit =>
    rcases unlessDead_eq_next h with ⟨hd, rfl⟩ | ⟨hd, h⟩
    · exact ⟨_, _, _, _, .dead _ hd, rfl⟩
    · rcases unlessGeneratorBusy_eq_next h with ⟨hg, rfl⟩ | ⟨hg, h⟩
      · exact ⟨_, _, _, _, .initBusy hg, rfl⟩
      · exact ⟨_, _, _, _, .crcInit hd hg, (Host.Outcome.next.inj h).symm⟩
  | crcByte b =>
    rcases unlessDead_eq_next h with ⟨hd, rfl⟩ | ⟨hd, h⟩
    · exact ⟨_, _, _, _, .dead _ hd, rfl⟩
    · rcases unlessGeneratorBusy_eq_next h with ⟨hg, rfl⟩ | ⟨hg, h⟩
      · exact ⟨_, _, _, _, .byteBusy b hg, rfl⟩
      · exact ⟨_, _, _, _, .crcByte b hd hg, (Host.Outcome.next.inj h).symm⟩
  | crcRead =>
    rcases unlessDead_eq_next h with ⟨hd, rfl⟩ | ⟨hd, h⟩
    · exact ⟨_, _, _, _, .dead _ hd, rfl⟩
    · exact ⟨_, _, _, _, .crcRead hd, (Host.Outcome.next.inj h).symm⟩
  | tyCheck ty =>
    rcases unlessDead_eq_next h with ⟨hd, rfl⟩ | ⟨hd, h⟩
    · exact ⟨_, _, _, _, .dead _ hd, rfl⟩
    · exact ⟨_, _, _, _, .tyCheck ty hd, (Host.Outcome.next.inj h).symm⟩
  | ckNew ty =>
    rcases unlessDead_eq_next h with ⟨hd, rfl⟩ | ⟨hd, h⟩
    · exact ⟨_, _, _, _, .dead _ hd, rfl⟩
    · split_ifs at h with ha
      · exact ⟨_, _, _, _, .ckNew ty hd ha, (Host.Outcome.next.inj h).symm⟩
      · exact ⟨_, _, _, _, .newNotAlpha ty hd (Bool.eq_false_iff.2 ha), (Host.Outcome.next.inj h).symm⟩
  | ckPush b =>
    rcases unlessDead_eq_next h with ⟨hd, rfl⟩ | ⟨hd, h⟩
    · exact ⟨_, _, _, _, .dead _ hd, rfl⟩
    · rcases onlyInAsm_eq_next h with ⟨hp, rfl⟩ | ⟨hp, h⟩
      · exact ⟨_, _, _, _, .pushNotAsm b hd hp, rfl⟩
      · split_ifs at h with hf
        · exact ⟨_, _, _, _, .pushFull b hp hf, (Host.Outcome.next.inj h).symm⟩
        · obtain ⟨s', hw, h⟩ := withAccess_eq_next h
          obtain ⟨hlt, rfl⟩ := memWrite_eq_ok.1 hw
          exact ⟨_, _, _, _, .push b hp (BitVec.lt_def.2 hlt), (Host.Outcome.next.inj h).symm⟩
  | ckBuild =>
    rcases unlessDead_eq_next h with ⟨hd, rfl⟩ | ⟨hd, h⟩
    · exact ⟨_, _, _, _, .dead _ hd, rfl⟩
    · rcases onlyInAsm_eq_next h with ⟨hp, rfl⟩ | ⟨hp, h⟩
      · exact ⟨_, _, _, _, .buildNotAsm hd hp, rfl⟩
      · obtain ⟨d, hr, h⟩ := withAccess_eq_next h
        refine ⟨_, _, _, _, .build d hp hr, ?_⟩
        simp only [crcFold_append_eq, respondOk_eq, BitVec.xor_assoc, BitVec.xor_self, BitVec.xor_zero] at h
        exact (Host.Outcome.next.inj h).symm
  | rxBegin m =>
    rcases unlessDead_eq_next h with ⟨hd, rfl⟩ | ⟨hd, h⟩
    · exact ⟨_, _, _, _, .dead _ hd, rfl⟩
    · exact ⟨_, _, _, _, .rxBegin m hd, (Host.Outcome.next.inj h).symm⟩
  | rxByte b => exact effect_of_rxByte h
  | rxEnd => exact effect_of_rxEnd h
  | ckLen =>
    rcases effect_of_accessor (i := .ckLen) (.inl (by decide)) h with h | ⟨hd, hv, h⟩
    · exact h
    · exact ⟨_, _, _, _, .ckLen hd hv, (Host.Outcome.next.inj h).symm⟩
  | ckType =>
    rcases effect_of_accessor (i := .ckType) (.inl (by decide)) h with h | ⟨hd, hv, h⟩
    · exact h
    · exact ⟨_, _, _, _, .ckType hd hv, (Host.Outcome.next.inj h).symm⟩
  | ckCrc =>
    rcases effect_of_accessor (i := .ckCrc) (.inl (by decide)) h with h | ⟨hd, hv, h⟩
    · exact h
    · exact ⟨_, _, _, _, .ckCrc hd hv, (Host.Outcome.next.inj h).symm⟩
  | ckData k =>
    rcases effect_of_accessor (i := .ckData k) (.inr ⟨k, rfl⟩) h with h | ⟨hd, hv, h⟩
    · exact h
    · split_ifs at h with hk
      · exact ⟨_, _, _, _, .badIndex k hd hv hk, (Host.Outcome.next.inj h).symm⟩
      · obtain ⟨b, hr, h⟩ := withAccess_eq_next h
        obtain ⟨hlt, hb⟩ := memRead_eq_ok.1 hr
        exact ⟨_, _, _, _, .ckData k b hd hv (BitVec.not_le.1 hk) (BitVec.lt_def.2 hlt) hb,
          (Host.Outcome.next.inj h).symm⟩
  | ckFlags =>
    rcases effect_of_accessor (i := .ckFlags) (.inl (by decide)) h with h | ⟨hd, hv, h⟩
    · exact h
    · exact ⟨_, _, _, _, .ckFlags hd hv, (Host.Outcome.next.inj h).symm⟩
  | ckEmit =>
    rcases effect_of_accessor (i := .ckEmit) (.inl (by decide)) h with h | ⟨hd, hv, h⟩
    · exact h
    · obtain ⟨d, hr, h⟩ := withAccess_eq_next h
      exact ⟨_, _, _, _, .ckEmit d hd hv hr, (Host.Outcome.next.inj h).symm⟩
  | sigEmit =>
    rcases unlessDead_eq_next h with ⟨hd, rfl⟩ | ⟨hd, h⟩
    · exact ⟨_, _, _, _, .dead _ hd, rfl⟩
    · exact ⟨_, _, _, _, .sigEmit hd, (Host.Outcome.next.inj h).symm⟩

end Sys2Proof.Machine
end

