-- ==== Sys2Proof/Laws/PerInstr.lean ====
section
/-! SUPPORT. Statements made per command: the word a command is encoded as is legal (30_encoding.md R76, R78). -/

namespace Sys2Proof.Laws

/-- A word that a row of the opcode map selects is legal. -/
theorem wellFormed_of_row {w : CmdWord} {r : OpcodeRow} (hr : r ∈ opcodeTable) (hw : r.selects w = true) :
    w.wellFormed = true := List.any_eq_true.2 ⟨r, hr, hw⟩

/-- A byte operand leaves the bits that format B fixes alone. -/
theorem select_b (op b : Byte) : (op ++ BitVec.ofNat 32 b.toNat) &&& Format.b.mask = op ++ 0#32 := by
  rw [show BitVec.ofNat 32 b.toNat = 0#24 ++ b by
    apply BitVec.eq_of_toNat_eq
    rw [BitVec.toNat_append]
    simp
    omega]
  ext j hj
  simp only [Format.mask, BitVec.getElem_and, BitVec.getElem_append]
  interval_cases j <;> simp

/-- A word operand leaves the bits that format W fixes alone. -/
theorem select_w (op : Byte) (x : Word) : (op ++ BitVec.ofNat 32 x.toNat) &&& Format.w.mask = op ++ 0#32 := by
  rw [BitVec.ofNat_toNat, BitVec.setWidth_eq]
  ext j hj
  simp only [Format.mask, BitVec.getElem_and, BitVec.getElem_append]
  interval_cases j <;> simp

/-- Every command is well formed: the operand types are the fields of the formats (R71). -/
theorem instr_wellFormed (i : Instr) : i.wellFormed = true := by
  refine decide_eq_true ?_
  cases i <;> first | exact BitVec.isLt _ | exact Bool.toNat_lt _ | exact Nat.one_pos

namespace EncodedLegal

/-- The word of the command is legal. -/
def Statement (i : Instr) : Prop := (encode i).wellFormed = true

theorem nop : Statement .nop := by unfold Statement; decide
theorem stRead : Statement .stRead := by unfold Statement; decide
theorem ckClear : Statement .ckClear := by unfold Statement; decide
theorem crcInit : Statement .crcInit := by unfold Statement; decide
theorem crcByte (b : Byte) : Statement (.crcByte b) :=
  wellFormed_of_row (r := ⟨"CRC.BYTE", 0x11#8, .b⟩) (by decide) (beq_iff_eq.2 (select_b 0x11#8 b))
theorem crcRead : Statement .crcRead := by unfold Statement; decide
theorem tyCheck (t : Word) : Statement (.tyCheck t) :=
  wellFormed_of_row (r := ⟨"TY.CHECK", 0x20#8, .w⟩) (by decide) (beq_iff_eq.2 (select_w 0x20#8 t))
theorem ckNew (t : Word) : Statement (.ckNew t) :=
  wellFormed_of_row (r := ⟨"CK.NEW", 0x30#8, .w⟩) (by decide) (beq_iff_eq.2 (select_w 0x30#8 t))
theorem ckPush (b : Byte) : Statement (.ckPush b) :=
  wellFormed_of_row (r := ⟨"CK.PUSH", 0x31#8, .b⟩) (by decide) (beq_iff_eq.2 (select_b 0x31#8 b))
theorem ckBuild : Statement .ckBuild := by unfold Statement; decide
theorem rxBegin (m : Bool) : Statement (.rxBegin m) := by cases m <;> (unfold Statement; decide)
theorem rxByte (b : Byte) : Statement (.rxByte b) :=
  wellFormed_of_row (r := ⟨"RX.BYTE", 0x41#8, .b⟩) (by decide) (beq_iff_eq.2 (select_b 0x41#8 b))
theorem rxEnd : Statement .rxEnd := by unfold Statement; decide
theorem ckLen : Statement .ckLen := by unfold Statement; decide
theorem ckType : Statement .ckType := by unfold Statement; decide
theorem ckCrc : Statement .ckCrc := by unfold Statement; decide
theorem ckData (k : Word) : Statement (.ckData k) :=
  wellFormed_of_row (r := ⟨"CK.DATA", 0x53#8, .w⟩) (by decide) (beq_iff_eq.2 (select_w 0x53#8 k))
theorem ckFlags : Statement .ckFlags := by unfold Statement; decide
theorem ckEmit : Statement .ckEmit := by unfold Statement; decide
theorem sigEmit : Statement .sigEmit := by unfold Statement; decide

end EncodedLegal

end Sys2Proof.Laws
end

