-- ==== Sys2Proof/Laws/Step.lean ====
section
/-! SUPPORT. What a step can do, said once over the effects of Effect.lean, and that the buffer stays in canonical form. -/

namespace Sys2Proof.Machine

variable {s t : State}

/-- The inversion of `step`: nothing presented, a reset event, a command word performed, or an illegal one answered. -/
theorem step_cases (h : step s = .next t) :
    (s.inbox = [] ∧ t = s) ∨
    (∃ rest, s.inbox = .reset :: rest ∧ t = State.resetEvent { s with inbox := rest }) ∨
    (∃ w rest i c out st val, s.inbox = .command w :: rest ∧ decode w = .ok i ∧
      Effect { s with inbox := rest } i c out st val ∧ t = c.answer out st val) ∨
    (∃ w rest e, s.inbox = .command w :: rest ∧ decode w = .error e ∧
      t = State.answer { s with inbox := rest } [] (if s.ph = .dead then .fatalLength else .illegalCommand) 0#32) := by
  unfold step at h
  split at h
  · next hb => exact .inl ⟨hb, (Host.Outcome.next.inj h).symm⟩
  · next rest hb => exact .inr (.inl ⟨rest, hb, (Host.Outcome.next.inj h).symm⟩)
  · next w rest hb =>
    cases hd : decode w with
    | ok i =>
      rw [hd] at h
      obtain ⟨c, out, st, val, he, ht⟩ := exec_effect h
      exact .inr (.inr (.inl ⟨w, rest, i, c, out, st, val, hb, hd, he, ht⟩))
    | error e =>
      rw [hd] at h
      refine .inr (.inr (.inr ⟨w, rest, e, hb, hd, ?_⟩))
      rcases unlessDead_eq_next h with ⟨hp, rfl⟩ | ⟨hp, h⟩
      · rw [if_pos hp]
      · rw [if_neg hp]
        exact (Host.Outcome.next.inj h).symm

/-- The buffer lists nothing after power-on, so it is in canonical form. -/
theorem reset_buf_wf : State.reset.buf.wf := List.Pairwise.nil

/-- The one operation that writes the buffer keeps the canonical form. -/
theorem memWrite_buf_wf {a : Nat} {b : Byte} (hs : s.buf.wf) (h : memWrite s a b = .ok t) : t.buf.wf := by
  obtain ⟨-, rfl⟩ := memWrite_eq_ok.1 h
  exact Memory.writeByte_wf a b hs

/-- No effect but a store changes the buffer, and a store keeps the canonical form. -/
theorem effect_buf_wf {i : Instr} {c : State} {out : List Byte} {st : Status} {val : Word} (he : Effect s i c out st val)
    (hs : s.buf.wf) : c.buf.wf := by
  cases he <;> first | exact hs | exact Memory.writeByte_wf _ _ hs

/-- A step keeps the canonical form of the buffer. -/
theorem step_buf_wf (h : step s = .next t) (hs : s.buf.wf) : t.buf.wf := by
  rcases step_cases h with ⟨-, rfl⟩ | ⟨rest, -, rfl⟩ | ⟨w, rest, i, c, out, st, val, -, -, he, rfl⟩ | ⟨w, rest, e, -, -, rfl⟩
  · exact hs
  · exact hs
  · have hc := effect_buf_wf he hs
    exact hc
  · exact hs

end Sys2Proof.Machine
end

