-- ==== Sys2Proof/Tests/Slice0.lean ====
section
/-! SUPPORT. The model's own tests, and for every obligation with hypotheses a state and operands that meet them. Expected values are
the spec's: command words from 30_encoding.md R75 and R79, results from the rules' examples and from 95_test_vectors.md. -/

namespace Sys2Proof.Tests

open Sys2Proof.Machine

/-! ### Small states -/

/-- The state after reset, in phase `p`. -/
def inPhase (p : Phase) : State := { State.reset with ph := p }

/-- A construction of type "ruSt" with nothing pushed. -/
def assembling : State := { State.reset with ph := .asm, ck_type := 0x72755374#32 }

/-- A construction whose one-byte buffer is full. -/
def assembledFull : State := { assembling with fill := 1#32, buf := [(0, 0x68#8)], bufBytes := 1#32 }

/-- A slot that holds the empty chunk "IEND" (42_construct.md R113). -/
def iend : State := { State.reset with ck_v := true, ck_type := 0x49454E44#32, ck_crc := 0xAE426082#32, crc_r := 0x51BD9F7D#32 }

/-- The data "hello" in the buffer. -/
def helloBuf : Memory := [(0, 0x68#8), (1, 0x65#8), (2, 0x6C#8), (3, 0x6C#8), (4, 0x6F#8)]

/-- A slot that holds the chunk "ruSt", "hello" (95_test_vectors.md A2). -/
def hello : State :=
  { State.reset with
    ck_v := true, ck_type := 0x72755374#32, ck_len := 5#32, fill := 5#32, ck_crc := 0xAE508D6F#32, crc_r := 0x51AF7290#32
    buf := helloBuf }

/-- A session in `RX_DATA` with `n` data bytes to take and none taken. -/
def receiving (n : Word) : State := { State.reset with ph := .rxData, ck_len := n, ck_type := 0x72755374#32, crc_r := 0x8B4959FD#32 }

/-- A session about to take the last stored-CRC byte of "ruSt", "hello" (43_deframer.md R127). -/
def atVerdict : State := { hello with ck_v := false, ph := .rxCrc, cnt := 3#3, ck_crc := 0x00AE508D#32 }

/-- A failed session (46_system.md R161). -/
def failed : State := { State.reset with ph := .fail, err := .crcMismatch, cnt := 3#3, rx_m := true }

/-- A dead machine. -/
def dead : State := { State.reset with ph := .dead, err := .fatalLength }

/-- A command word presented. -/
def presenting (s : State) (w : CmdWord) : State := { s with inbox := [.command w] }

/-! ### Ill-formed command words are refused (R71, R76) -/

theorem test_wf_unknown_opcode : CmdWord.wellFormed 0x0300000000#40 = false := by decide
theorem test_wf_format_n_reserved : CmdWord.wellFormed 0x0000000001#40 = false := by decide
theorem test_wf_format_b_reserved : CmdWord.wellFormed 0x1100000100#40 = false := by decide
theorem test_wf_format_m_reserved : CmdWord.wellFormed 0x4000000002#40 = false := by decide
theorem test_wf_format_w_all_legal : CmdWord.wellFormed 0x53FFFFFFFF#40 = true := by decide
theorem test_decode_unknown_opcode : decode 0x0300000000#40 = .error .unknownOpcode := rfl
theorem test_decode_format_n_reserved : decode 0x0080000000#40 = .error .reservedBitSet := rfl
theorem test_decode_format_b_reserved : decode 0x1100000100#40 = .error .reservedBitSet := rfl
theorem test_decode_format_m_reserved : decode 0x4000000002#40 = .error .reservedBitSet := rfl

/-! ### Every command's word, written out from R75 -/

theorem test_decode_nop : decode 0x0000000000#40 = .ok .nop := rfl
theorem test_decode_stRead : decode 0x0100000000#40 = .ok .stRead := rfl
theorem test_decode_ckClear : decode 0x0200000000#40 = .ok .ckClear := rfl
theorem test_decode_crcInit : decode 0x1000000000#40 = .ok .crcInit := rfl
theorem test_decode_crcByte : decode 0x1100000031#40 = .ok (.crcByte 0x31#8) := rfl
theorem test_decode_crcRead : decode 0x1200000000#40 = .ok .crcRead := rfl
theorem test_decode_tyCheck : decode 0x2072755374#40 = .ok (.tyCheck 0x72755374#32) := rfl
theorem test_decode_ckNew : decode 0x3072755374#40 = .ok (.ckNew 0x72755374#32) := rfl
theorem test_decode_ckPush : decode 0x3100000068#40 = .ok (.ckPush 0x68#8) := rfl
theorem test_decode_ckBuild : decode 0x3200000000#40 = .ok .ckBuild := rfl
theorem test_decode_rxBegin_0 : decode 0x4000000000#40 = .ok (.rxBegin false) := rfl
theorem test_decode_rxBegin_1 : decode 0x4000000001#40 = .ok (.rxBegin true) := rfl
theorem test_decode_rxByte : decode 0x4100000089#40 = .ok (.rxByte 0x89#8) := rfl
theorem test_decode_rxEnd : decode 0x4200000000#40 = .ok .rxEnd := rfl
theorem test_decode_ckLen : decode 0x5000000000#40 = .ok .ckLen := rfl
theorem test_decode_ckType : decode 0x5100000000#40 = .ok .ckType := rfl
theorem test_decode_ckCrc : decode 0x5200000000#40 = .ok .ckCrc := rfl
theorem test_decode_ckData : decode 0x5300000004#40 = .ok (.ckData 4#32) := rfl
theorem test_decode_ckFlags : decode 0x5400000000#40 = .ok .ckFlags := rfl
theorem test_decode_ckEmit : decode 0x6000000000#40 = .ok .ckEmit := rfl
theorem test_decode_sigEmit : decode 0x6100000000#40 = .ok .sigEmit := rfl
theorem test_decodeTableWord : decodeTableWord 40 0x11000000FF = some (.crcByte 0xFF#8) := by decide
theorem test_withFetchWord_runs : step (State.reset.withFetchWord 40 0x5000000000) =
    .next (State.reset.answer [] .badPhase 0#32) := rfl

/-! ### One step of every command -/

-- R160
theorem test_nop : exec .nop failed = .next (failed.answer [] .ok 0#32) := rfl
-- R161: in a mode-1 session at a chunk boundary with a chunk in the slot; after a failure with CRC_MISMATCH
theorem test_stRead_boundary : statusWord { iend with ph := .rxLen, rx_m := true } = 0x00000053#32 := by decide
theorem test_stRead_failed : exec .stRead failed = .next (failed.answer [] .ok 0x00003347#32) := rfl
-- R162
theorem test_ckClear : exec .ckClear failed = .next (State.answer { State.reset with rx_m := true } [] .ok 0#32) := rfl
-- R92, R95 (95 B1.5)
theorem test_crcInit : exec .crcInit hello = .next (State.answer { hello with crc_r := 0xFFFFFFFF#32 } [] .ok 0#32) := rfl
theorem test_crcInit_busy : exec .crcInit (inPhase .rxType) = .next ((inPhase .rxType).answer [] .badPhase 0#32) := rfl
-- R93 (the worked example of R90); R95
theorem test_crcByte : crcStep State.reset.crc_r 0x61#8 = 0x174841BC#32 := by decide
theorem test_crcByte_busy : exec (.crcByte 0#8) (receiving 5#32) = .next ((receiving 5#32).answer [] .badPhase 0#32) := rfl
-- R94: the CRC of "a"
theorem test_crcRead : exec .crcRead { State.reset with crc_r := 0x174841BC#32 } =
    .next (State.answer { State.reset with crc_r := 0x174841BC#32 } [] .ok 0xE8B7BE43#32) := rfl
-- R103: "ruSt", "AB1d"
theorem test_tyCheck_ruSt : exec (.tyCheck 0x72755374#32) State.reset = .next (State.reset.answer [] .ok 0x0000003C#32) := rfl
theorem test_tyCheck_AB1d : exec (.tyCheck 0x41423164#32) State.reset = .next (State.reset.answer [] .ok 0x0000000B#32) := rfl
-- R111: "ruSt", "ru1t"
theorem test_ckNew : exec (.ckNew 0x72755374#32) State.reset = .next (assembling.answer [] .ok 0#32) := rfl
theorem test_ckNew_refused : exec (.ckNew 0x72753174#32) hello = .next (hello.answer [] .invalidChunkType 0#32) := rfl
-- R112
theorem test_ckPush : exec (.ckPush 0x68#8) assembling =
    .next (State.answer { assembling with buf := [(0, 0x68#8)], fill := 1#32 } [] .ok 0#32) := rfl
theorem test_ckPush_full : exec (.ckPush 0#8) assembledFull =
    .next (State.answer { assembledFull with ph := .dead, err := .fatalLength } [] .fatalLength 0#32) := rfl
-- R113: "IEND"; "ruSt" with "hello"
theorem test_ckBuild_empty : ∃ t, exec .ckBuild { State.reset with ph := .asm, ck_type := 0x49454E44#32 } = .next t ∧
    t = iend.answer [] .ok 0xAE426082#32 := ⟨_, rfl, by decide +kernel⟩
theorem test_ckBuild_hello : ∃ t, exec .ckBuild { assembling with fill := 5#32, buf := helloBuf } = .next t ∧
    t = hello.answer [] .ok 0xAE508D6F#32 := ⟨_, rfl, by decide +kernel⟩
-- R120
theorem test_rxBegin : exec (.rxBegin true) hello =
    .next (State.answer { hello with rx_m := true, ck_v := false, fill := 0#32, ph := .rxSig } [] .ok 0#32) := rfl
-- R122, R127
theorem test_rxByte_signature : exec (.rxByte 0x0A#8) { State.reset with ph := .rxSig, cnt := 7#3, rx_m := true } =
    .next (State.answer { State.reset with ph := .rxLen, rx_m := true } [] .ok 0#32) := rfl
theorem test_rxByte_verdict : exec (.rxByte 0x6F#8) atVerdict = .next (hello.answer [] .ok 1#32) := rfl
-- R129
theorem test_rxEnd_boundary : exec .rxEnd { hello with ph := .rxLen, rx_m := true } =
    .next (State.answer { hello with rx_m := true } [] .ok 0#32) := rfl
theorem test_rxEnd_short : exec .rxEnd (receiving 5#32) =
    .next (State.answer { receiving 5#32 with ph := .fail, err := .truncatedChunk } [] .truncatedChunk 0#32) := rfl
-- R141 to R145
theorem test_ckLen : exec .ckLen hello = .next (hello.answer [] .ok 0x00000005#32) := rfl
theorem test_ckType : exec .ckType hello = .next (hello.answer [] .ok 0x72755374#32) := rfl
theorem test_ckCrc : exec .ckCrc hello = .next (hello.answer [] .ok 0xAE508D6F#32) := rfl
theorem test_ckData : exec (.ckData 1#32) hello = .next (hello.answer [] .ok 0x00000065#32) := rfl
theorem test_ckData_index : exec (.ckData 5#32) hello = .next (hello.answer [] .badIndex 0#32) := rfl
theorem test_ckFlags : exec .ckFlags hello = .next (hello.answer [] .ok 0x0000003C#32) := rfl
-- R151, R152
theorem test_ckEmit : exec .ckEmit hello = .next (hello.answer
    [0x00#8, 0x00#8, 0x00#8, 0x05#8, 0x72#8, 0x75#8, 0x53#8, 0x74#8, 0x68#8, 0x65#8, 0x6C#8, 0x6C#8, 0x6F#8,
      0xAE#8, 0x50#8, 0x8D#8, 0x6F#8] .ok 0#32) := rfl
theorem test_sigEmit : exec .sigEmit State.reset =
    .next (State.reset.answer [0x89#8, 0x50#8, 0x4E#8, 0x47#8, 0x0D#8, 0x0A#8, 0x1A#8, 0x0A#8] .ok 0#32) := rfl
-- R91, the check string
theorem test_crc32_check : crc32 [0x31#8, 0x32#8, 0x33#8, 0x34#8, 0x35#8, 0x36#8, 0x37#8, 0x38#8, 0x39#8] = 0xCBF43926#32 := by
  decide +kernel
-- R180, R200
theorem test_dead_illegal_word : step (presenting dead 0xFFFFFFFFFF#40) = .next (dead.answer [] .fatalLength 0#32) := rfl
theorem test_reset_leaves_dead : step { dead with inbox := [.reset] } = .next State.reset := rfl

/-! ### Invariants and runs: witnesses the obligations below share -/

theorem hello_bytes : hello.bytes 5 = [0x68#8, 0x65#8, 0x6C#8, 0x6C#8, 0x6F#8] := by decide

theorem hello_written : hello.written 5 := by unfold State.written; decide

theorem hello_inv : hello.Inv where
  memWf := by decide
  cntLeThree := by decide
  cntZero := by decide
  fillLe := by decide
  fillWritten := hello_written
  sigMode := by decide
  slotPlace := by decide
  slotFill := by decide
  slotCrc := fun _ => by decide +kernel
  slotAlpha := by decide
  asmAlpha := by decide
  lenLe := by decide
  dataRoom := by decide
  dataDone := by decide
  tyLatched := by decide
  crcOfType := by decide
  crcOfData := fun h => absurd h (by decide)
  errOk := by decide
  errFail := by decide
  errDead := by decide

/-- The end of a data field, one byte to go: an invariant state whose every clause about a session is about something. -/
def lastByte : State :=
  { State.reset with ph := .rxData, rx_m := true, ck_len := 5#32, ck_type := 0x72755374#32, fill := 4#32, crc_r := 0x7172AA5E#32,
                     buf := [(0, 0x68#8), (1, 0x65#8), (2, 0x6C#8), (3, 0x6C#8)], bufBytes := 5#32 }

theorem lastByte_inv : lastByte.Inv where
  memWf := by decide
  cntLeThree := by decide
  cntZero := by decide
  fillLe := by decide
  fillWritten := by unfold State.written; decide
  sigMode := by decide
  slotPlace := by decide
  slotFill := by decide
  slotCrc := by decide
  slotAlpha := by decide
  asmAlpha := by decide
  lenLe := by decide
  dataRoom := by decide
  dataDone := by decide
  tyLatched := by decide
  crcOfType := by decide
  crcOfData := fun _ => by decide +kernel
  errOk := by decide
  errFail := by decide
  errDead := by decide

theorem reachable_reset : Reachable State.reset := Reachable.reset Config.bufBytesArch

/-- A command word presented to a reachable machine and taken. -/
theorem reachable_command {s t : State} (w : CmdWord) (hs : Reachable s) (h : step { s with inbox := s.inbox ++ [.command w] } = .next t) :
    Reachable t := .step _ _ (.present s (.command w) hs) h

/-- `CK.NEW "ruSt"` from reset. -/
theorem reachable_assembling : Reachable (assembling.answer [] .ok 0#32) :=
  reachable_command 0x3072755374#40 reachable_reset rfl

/-- `CK.BUILD` after it: a valid slot (the CRC is 95_test_vectors.md B1.2's of "ruSt"). -/
theorem reachable_valid_slot : ∃ s, Reachable s ∧ s.ck_v = true ∧ s.ck_crc = 0x74B6A602#32 :=
  ⟨_, reachable_command 0x3200000000#40 reachable_assembling rfl, by decide, by decide +kernel⟩

/-- `RX.BEGIN 1` and a wrong byte: a failed session. -/
theorem reachable_fail : ∃ s, Reachable s ∧ s.ph = .fail :=
  ⟨_, reachable_command 0x410000004E#40 (reachable_command 0x4000000001#40 reachable_reset rfl) rfl, by decide⟩

/-! ### A state and operands for the hypotheses of every obligation, clause by clause -/

-- O1 to O4
theorem witness_O1_unlisted : ((0xFFFFFFFFFF#40 : CmdWord) >>> 32).toNat ∉ [0x00, 0x01, 0x02, 0x10, 0x11, 0x12, 0x20, 0x30, 0x31, 0x32,
    0x40, 0x41, 0x42, 0x50, 0x51, 0x52, 0x53, 0x54, 0x60, 0x61] := by decide
theorem witness_O2_both : (decode 0x40FFFFFFFF#40).toOption = none ∧ (decode 0x30FFFFFFFF#40).toOption = some (.ckNew 0xFFFFFFFF#32) := by
  decide
theorem witness_O3 : Instr.wellFormed (.ckData 0xFFFFFFFF#32) = true ∧ Instr.wellFormed (.rxByte 0xFF#8) = true := by decide
theorem witness_O4 : decode 0x4000000001#40 = .ok (.rxBegin true) := rfl
-- O6 to O8, O10, O11
theorem witness_O6 : (presenting hello 0x5300000004#40).inbox = .command 0x5300000004#40 :: [] ∧
    decode 0x5300000004#40 = .ok (.ckData 4#32) := ⟨rfl, rfl⟩
theorem witness_O7 : (presenting failed 0x4000000002#40).inbox = .command 0x4000000002#40 :: [] ∧
    (presenting failed 0x4000000002#40).ph ≠ .dead ∧ decode 0x4000000002#40 = .error .reservedBitSet := ⟨rfl, by decide, rfl⟩
theorem witness_O8 : (presenting dead 0#40).inbox = .command 0#40 :: [] ∧ (presenting dead 0#40).ph = .dead := ⟨rfl, rfl⟩
theorem witness_O10 : ({ dead with inbox := [.reset, .command 0#40] } : State).inbox = .reset :: [.command 0#40] := rfl
theorem witness_O11 : ∃ t, (presenting hello 0x5300000005#40).inbox = .command 0x5300000005#40 :: [] ∧
    step (presenting hello 0x5300000005#40) = .next t ∧ t.replies = [⟨[], .badIndex, 0#32⟩] := ⟨_, rfl, rfl, rfl⟩
-- O12
theorem witness_O12_ckEmit : ∃ t r, exec .ckEmit iend = .next t ∧ t.replies = iend.replies ++ [r] ∧ r.st = .ok := ⟨_, _, rfl, rfl, rfl⟩
theorem witness_O12_sigEmit : ∃ t r, exec .sigEmit failed = .next t ∧ t.replies = failed.replies ++ [r] ∧ r.st = .ok :=
  ⟨_, _, rfl, rfl, rfl⟩
theorem witness_O12_refused : ∃ t r, exec .ckEmit failed = .next t ∧ t.replies = failed.replies ++ [r] ∧ r.st ≠ .ok :=
  ⟨_, _, rfl, rfl, by decide⟩
-- O15
theorem witness_O15 : (0 : Nat) < 8 ∧ (7 : Nat) < 8 := by decide
-- O16, O17
theorem witness_O16_busy : (inPhase .rxCrc).ph ≠ .dead ∧
    ((inPhase .rxCrc).ph = .rxType ∨ (inPhase .rxCrc).ph = .rxData ∨ (inPhase .rxCrc).ph = .rxCrc) := by decide
theorem witness_O16_free : (inPhase .rxLen).ph ≠ .dead ∧
    ¬((inPhase .rxLen).ph = .rxType ∨ (inPhase .rxLen).ph = .rxData ∨ (inPhase .rxLen).ph = .rxCrc) := by decide
theorem witness_O16_reserved : (0x800000#24 : BitVec 24) ≠ 0#24 := by decide
theorem witness_O17 : (inPhase .rxSig).ph ≠ .dead ∧ (inPhase .rxSig).ph ≠ .rxType ∧ (inPhase .rxSig).ph ≠ .rxData ∧
    (inPhase .rxSig).ph ≠ .rxCrc := by decide
-- O19, O20: just outside and just inside the letter ranges
theorem witness_O19 : failed.ph ≠ .dead := by decide
theorem witness_O20_refused : hello.ph ≠ .dead ∧ tyAlpha 0x41415B41#32 = false ∧ tyAlpha 0x40414141#32 = false := by decide
theorem witness_O20_accepted : hello.ph ≠ .dead ∧ tyAlpha 0x415A617A#32 = true := by decide
-- O21, O22
theorem witness_O21_phase : hello.ph ≠ .dead ∧ hello.fill ≤ hello.bufBytes ∧ hello.ph ≠ .asm := by decide
theorem witness_O21_full : assembledFull.ph ≠ .dead ∧ assembledFull.fill ≤ assembledFull.bufBytes ∧ assembledFull.ph = .asm ∧
    assembledFull.fill = assembledFull.bufBytes := by decide
theorem witness_O21_room : assembling.ph ≠ .dead ∧ assembling.fill ≤ assembling.bufBytes ∧ assembling.ph = .asm ∧
    assembling.fill ≠ assembling.bufBytes := by decide
theorem witness_O22_phase : hello.ph ≠ .dead ∧ hello.ph ≠ .asm := by decide
theorem witness_O22_empty : assembling.ph = .asm ∧ assembling.fill ≤ assembling.bufBytes ∧
    ([] : List Byte).length = assembling.fill.toNat ∧ assembling.holds [] := ⟨rfl, by decide, rfl, State.holds_nil _⟩
theorem witness_O22_full : assembledFull.ph = .asm ∧ assembledFull.fill ≤ assembledFull.bufBytes ∧
    [0x68#8].length = assembledFull.fill.toNat ∧ assembledFull.holds [0x68#8] := ⟨rfl, by decide, rfl, by unfold State.holds; decide⟩
-- O23, and the shared hypotheses of O33, O34, O36, O37, O38, O43
theorem witness_O23 : failed.ph ≠ .dead ∧ tyAlpha 0x72757374#32 = true ∧ [0x68#8].length ≤ failed.bufBytes.toNat := by decide
theorem witness_O23_full : assembledFull.ph ≠ .dead ∧ [0x68#8].length ≤ assembledFull.bufBytes.toNat ∧
    ¬[0x68#8, 0x65#8].length ≤ assembledFull.bufBytes.toNat := by decide
-- O24, O25
theorem witness_O24 : failed.ph ≠ .dead ∧ (0x40000000#31 : BitVec 31) ≠ 0#31 := by decide
theorem witness_O25_none : hello.ph = .idle ∨ hello.ph = .asm := by decide
theorem witness_O25_failed : failed.ph = .fail := by decide
theorem witness_O25_open : ∃ t, atVerdict.ph ∈ [Phase.rxSig, .rxLen, .rxType, .rxData, .rxCrc] ∧
    exec (.rxByte 0x6F#8) atVerdict = .next t ∧ t.ck_v = true := ⟨_, by decide, rfl, rfl⟩
-- O26 to O30
theorem witness_O26_differs : (inPhase .rxSig).ph = .rxSig ∧ [0x89#8][(inPhase .rxSig).cnt.toNat]? ≠ some 0x4E#8 := by decide
theorem witness_O26_last : ({ inPhase .rxSig with cnt := 7#3 } : State).ph = .rxSig ∧
    [0x89#8, 0x50#8, 0x4E#8, 0x47#8, 0x0D#8, 0x0A#8, 0x1A#8, 0x0A#8][(7#3 : BitVec 3).toNat]? = some 0x0A#8 := by decide
theorem witness_O26_next : ({ inPhase .rxSig with cnt := 6#3 } : State).ph = .rxSig ∧ (6#3 : BitVec 3) ≠ 7#3 ∧
    [0x89#8, 0x50#8, 0x4E#8, 0x47#8, 0x0D#8, 0x0A#8, 0x1A#8, 0x0A#8][(6#3 : BitVec 3).toNat]? = some 0x1A#8 := by decide
/-- A session at the fourth length byte, with a buffer of five bytes. -/
def fourthLenByte : State := { State.reset with ph := .rxLen, cnt := 3#3, bufBytes := 5#32 }
theorem witness_O27_next : (inPhase .rxLen).ph = .rxLen ∧ (inPhase .rxLen).cnt ≠ 3#3 := by decide
theorem witness_O27_fits : fourthLenByte.ph = .rxLen ∧ fourthLenByte.cnt = 3#3 ∧
    (fourthLenByte.ck_len <<< 8) ||| (5#8 : Byte).setWidth 32 ≤ fourthLenByte.bufBytes := by decide
theorem witness_O27_too_long : fourthLenByte.ph = .rxLen ∧ fourthLenByte.cnt = 3#3 ∧
    fourthLenByte.bufBytes < (fourthLenByte.ck_len <<< 8) ||| (6#8 : Byte).setWidth 32 := by decide
theorem witness_O28_first : (inPhase .rxType).ph = .rxType ∧ (inPhase .rxType).cnt ≠ 3#3 := by decide
theorem witness_O28_last : ({ inPhase .rxType with cnt := 3#3 } : State).ph = .rxType ∧ (3#3 : BitVec 3) = 3#3 := by decide
theorem witness_O29_last : lastByte.ph = .rxData ∧ lastByte.fill < lastByte.ck_len ∧ lastByte.ck_len ≤ lastByte.bufBytes := by decide
theorem witness_O29_more : (receiving 5#32).ph = .rxData ∧ (receiving 5#32).fill < (receiving 5#32).ck_len ∧
    (receiving 5#32).ck_len ≤ (receiving 5#32).bufBytes := by decide
theorem witness_O30_next : (inPhase .rxCrc).ph = .rxCrc ∧ (inPhase .rxCrc).cnt ≠ 3#3 := by decide
theorem witness_O30_bad_type : ({ atVerdict with ty_bad := true } : State).ph = .rxCrc ∧ atVerdict.cnt = 3#3 := by decide
theorem witness_O30_differs : atVerdict.ph = .rxCrc ∧ atVerdict.cnt = 3#3 ∧ atVerdict.ty_bad = false ∧
    (atVerdict.ck_crc <<< 8) ||| (0x6E#8 : Byte).setWidth 32 ≠ atVerdict.crc_r ^^^ 0xFFFFFFFF#32 := by decide
theorem witness_O30_equal : atVerdict.ph = .rxCrc ∧ atVerdict.cnt = 3#3 ∧ atVerdict.ty_bad = false ∧
    (atVerdict.ck_crc <<< 8) ||| (0x6F#8 : Byte).setWidth 32 = atVerdict.crc_r ^^^ 0xFFFFFFFF#32 := by decide
-- O31
theorem witness_O31_none : assembling.ph ≠ .dead ∧ (assembling.ph = .idle ∨ assembling.ph = .asm) := by decide
theorem witness_O31_failed : failed.ph ≠ .dead ∧ failed.ph = .fail := by decide
theorem witness_O31_signature : (inPhase .rxSig).ph ≠ .dead ∧ (inPhase .rxSig).ph = .rxSig := by decide
theorem witness_O31_boundary : ({ hello with ph := .rxLen, rx_m := true } : State).ph = .rxLen ∧ hello.cnt = 0#3 := by decide
theorem witness_O31_mode_0 : (inPhase .rxLen).ph = .rxLen ∧ ((inPhase .rxLen).cnt ≠ 0#3 ∨ (inPhase .rxLen).rx_m = false) := by decide
-- O32
theorem witness_O32 : ∃ t, lastByte.Inv ∧ lastByte.ph ≠ .dead ∧ exec (.rxByte 0x6F#8) lastByte = .next t ∧ t.ph = .rxCrc :=
  ⟨_, lastByte_inv, by decide, rfl, rfl⟩
theorem witness_O32_row : (phaseRow lastByte 0#32 (.rxByte 0x6F#8)).2.2 = some (.ok, 0#32) := by decide
theorem witness_O32_dead : ∃ t, (presenting dead 0x0200000000#40).ph = .dead ∧ step (presenting dead 0x0200000000#40) = .next t :=
  ⟨_, rfl, rfl⟩
-- O33, O34: both ways a parse can end, and a length at the bound
theorem witness_O33_chunk : parseChunk 0#32 iend.slot.wire = .chunk iend.slot [] := by decide +kernel
theorem witness_O33_short : parseChunk 0#32 (iend.slot.wire.take 11) = .bad .truncatedChunk := by decide
theorem witness_O33_too_long : parseChunk 5#32 [0#8, 0#8, 0#8, 6#8] = .bad .unsupportedLength := by decide
theorem witness_O34_empty : parseStream 0#32 Config.sig.toList = ([], .ok) := by decide
theorem witness_O34_one : parseStream 0#32 (Config.sig.toList ++ iend.slot.wire) = ([iend.slot], .ok) := by decide +kernel
-- O35 to O38
theorem witness_O35 : hello.Inv ∧ hello.ck_v = true ∧ tyValid hello.ck_type = true := ⟨hello_inv, by decide, by decide⟩
/-- The last reply of a run. -/
def lastReply : Result → Option Reply
  | .next t => t.replies.getLast?
  | .fault _ => none
  | .refused _ => none
theorem witness_O36 : hello.ph ≠ .dead ∧ ∃ t, execAll (.rxBegin false :: iend.slot.wire.map Instr.rxByte) hello = .next t ∧
    t.replies.getLast? = some ⟨[], .ok, 1#32⟩ := by
  have h : lastReply (execAll (.rxBegin false :: iend.slot.wire.map Instr.rxByte) hello) = some ⟨[], .ok, 1#32⟩ := by decide +kernel
  refine ⟨by decide, ?_⟩
  cases hx : execAll (.rxBegin false :: iend.slot.wire.map Instr.rxByte) hello <;> rw [hx] at h
  · exact ⟨_, rfl, h⟩
  · exact absurd h (by simp [lastReply])
  · exact absurd h (by simp [lastReply])
theorem witness_O37 : hello.ph ≠ .dead ∧ ∀ c ∈ [(0x72755374#32, [0x68#8]), (0x49454E44#32, ([] : List Byte))],
    tyValid c.1 = true ∧ c.2.length ≤ hello.bufBytes.toNat := by decide
theorem witness_O38 : hello.ph ≠ .dead ∧ tyValid 0x72755374#32 = true ∧ [0x68#8].length ≤ hello.bufBytes.toNat ∧
    0 < [0x68#8].length ∧ tyValid (0x72755374#32 ^^^ (1#32 <<< 13)) = false ∧ tyValid (0x72755374#32 ^^^ (1#32 <<< 0)) = true := by decide
-- O39 to O44
theorem witness_O39_valid : hello.ph ≠ .dead ∧ hello.ck_v = true := by decide
theorem witness_O39_not : failed.ph ≠ .dead ∧ failed.ck_v = false := by decide
theorem witness_O40_last : hello.ck_v = true ∧ (4#32 : Word).toNat < hello.ck_len.toNat ∧ hello.ck_len ≤ hello.bufBytes ∧
    hello.buf.readByte 4 = some 0x6F#8 := by decide
theorem witness_O40_index : hello.ck_v = true ∧ hello.ck_len.toNat ≤ (5#32 : Word).toNat ∧ iend.ck_v = true ∧ iend.ck_len.toNat ≤ 0 := by
  decide
theorem witness_O41 : hello.ph ≠ .dead ∧ hello.ck_v = true ∧ hello.ck_len ≤ hello.bufBytes ∧
    [0x68#8, 0x65#8, 0x6C#8, 0x6C#8, 0x6F#8].length = hello.ck_len.toNat ∧ hello.holds [0x68#8, 0x65#8, 0x6C#8, 0x6C#8, 0x6F#8] :=
  ⟨by decide, rfl, by decide, rfl, by unfold State.holds; decide⟩
theorem witness_O41_empty : iend.ck_v = true ∧ iend.ck_len ≤ iend.bufBytes ∧ ([] : List Byte).length = iend.ck_len.toNat ∧ iend.holds [] :=
  ⟨rfl, by decide, rfl, State.holds_nil _⟩
theorem witness_O42_O44 : (inPhase .asm).ph ≠ .dead := by decide
theorem witness_O43 : hello.ph ≠ .dead ∧ ∀ c ∈ [(0x72757374#32, [0x68#8]), (0x49454E44#32, ([] : List Byte))],
    tyAlpha c.1 = true ∧ c.2.length ≤ hello.bufBytes.toNat := by decide
-- O46, its four disjuncts
theorem witness_O46_status : ∃ t r, step (presenting hello 0x5300000005#40) = .next t ∧
    t.replies = (presenting hello 0x5300000005#40).replies ++ [r] ∧ r.st ∈ [Status.illegalCommand, .badPhase, .badIndex] :=
  ⟨_, _, rfl, rfl, by decide⟩
theorem witness_O46_new : ∃ t r, step (presenting hello 0x3072753174#40) = .next t ∧
    t.replies = (presenting hello 0x3072753174#40).replies ++ [r] ∧ r.st = .invalidChunkType ∧
    decode 0x3072753174#40 = .ok (.ckNew 0x72753174#32) := ⟨_, _, rfl, rfl, rfl, rfl⟩
theorem witness_O46_sticky : ∃ t r, step (presenting failed 0x4200000000#40) = .next t ∧
    t.replies = (presenting failed 0x4200000000#40).replies ++ [r] ∧ failed.ph = .fail ∧ decode 0x4200000000#40 = .ok .rxEnd :=
  ⟨_, _, rfl, rfl, rfl, rfl⟩
theorem witness_O46_dead : ∃ t r, step (presenting dead 0x4200000000#40) = .next t ∧
    t.replies = (presenting dead 0x4200000000#40).replies ++ [r] ∧ (presenting dead 0x4200000000#40).ph = .dead := ⟨_, _, rfl, rfl, rfl⟩
-- O47: a length too long by one keeps the shifted-in length; a wrong stored CRC keeps the shifted-in CRC
theorem witness_O47_length : ∃ t, fourthLenByte.ph ≠ .fail ∧ exec (.rxByte 6#8) fourthLenByte = .next t ∧ t.ph = .fail ∧
    fourthLenByte.ph = .rxLen ∧ t.ck_len = 6#32 ∧ t.cnt = 0#3 := ⟨_, by decide, rfl, rfl, rfl, rfl, rfl⟩
theorem witness_O47_crc : ∃ t, atVerdict.ph ≠ .fail ∧ exec (.rxByte 0x6E#8) atVerdict = .next t ∧ t.ph = .fail ∧
    atVerdict.ph = .rxCrc ∧ t.ck_crc = 0xAE508D6E#32 ∧ t.cnt = 3#3 := ⟨_, by decide, rfl, rfl, rfl, by decide, rfl⟩
theorem witness_O47_end : ∃ t, atVerdict.ph ≠ .fail ∧ exec .rxEnd atVerdict = .next t ∧ t.ph = .fail := ⟨_, by decide, rfl, rfl⟩
theorem witness_O47_signature : ∃ t, (inPhase .rxSig).ph ≠ .fail ∧ exec (.rxByte 0x4E#8) (inPhase .rxSig) = .next t ∧ t.ph = .fail ∧
    (inPhase .rxSig).ph ≠ .rxLen ∧ (inPhase .rxSig).ph ≠ .rxCrc := ⟨_, by decide, rfl, rfl, by decide, by decide⟩
-- O48, O49
theorem witness_O48_enters : ∃ t, assembledFull.ph ≠ .dead ∧ exec (.ckPush 0#8) assembledFull = .next t ∧ t.ph = .dead :=
  ⟨_, by decide, rfl, rfl⟩
theorem witness_O48_reset : ∃ t, step { dead with inbox := [.reset] } = .next t ∧ t.ph = .idle := ⟨_, rfl, rfl⟩
theorem witness_O49_stays : ∃ t, failed.ph = .fail ∧ failed.ck_v = false ∧ exec (.ckNew 0x72753174#32) failed = .next t ∧ t.ph = .fail :=
  ⟨_, rfl, rfl, rfl, rfl⟩
theorem witness_O49_leaves : ∃ t, failed.ph = .fail ∧ failed.ck_v = false ∧ exec (.rxBegin false) failed = .next t ∧ t.ph ≠ .fail :=
  ⟨_, rfl, rfl, rfl, by decide⟩
-- O51, O52, O57, O60: invariant states that step
theorem witness_O51 : ∃ t, State.Inv { lastByte with inbox := [.command 0x410000006F#40] } ∧
    step { lastByte with inbox := [.command 0x410000006F#40] } = .next t ∧ t.ph = .rxCrc :=
  ⟨_, ⟨lastByte_inv.1, lastByte_inv.2, lastByte_inv.3, lastByte_inv.4, lastByte_inv.5, lastByte_inv.6, lastByte_inv.7, lastByte_inv.8,
    lastByte_inv.9, lastByte_inv.10, lastByte_inv.11, lastByte_inv.12, lastByte_inv.13, lastByte_inv.14, lastByte_inv.15,
    lastByte_inv.16, lastByte_inv.17, lastByte_inv.18, lastByte_inv.19, lastByte_inv.20⟩, rfl, rfl⟩
theorem witness_O52 : hello.Inv := hello_inv
-- O53 to O56
theorem witness_O53_O55 : ∃ s, Reachable s ∧ s.ph = .asm := ⟨_, reachable_assembling, rfl⟩
theorem witness_O54 : ∃ s, Reachable s ∧ s.ck_v = true := by
  obtain ⟨s, hs, hv, -⟩ := reachable_valid_slot
  exact ⟨s, hs, hv⟩
/-- Command words presented and taken one after the other. -/
def feed : List CmdWord → State → Result
  | [], s => .next s
  | w :: ws, s =>
    match step { s with inbox := s.inbox ++ [.command w] } with
    | .next t => feed ws t
    | .fault f => .fault f
    | .refused r => .refused r
theorem reachable_feed {ws : List CmdWord} {s t : State} (hs : Reachable s) (h : feed ws s = .next t) : Reachable t := by
  induction ws generalizing s with
  | nil => exact Host.Outcome.next.inj h ▸ hs
  | cons w ws ih =>
    unfold feed at h
    split at h
    · next u hu => exact ih (reachable_command w hs hu) h
    · exact absurd h (by simp)
    · exact absurd h (by simp)
/-- A mode-1 session with the signature and all but the last byte of the empty chunk "IEND" (42_construct.md R113, 45_framer.md R151). -/
def almostIend : List CmdWord :=
  [0x4000000001#40, 0x4100000089#40, 0x4100000050#40, 0x410000004E#40, 0x4100000047#40, 0x410000000D#40, 0x410000000A#40,
   0x410000001A#40, 0x410000000A#40] ++
  [0x4100000000#40, 0x4100000000#40, 0x4100000000#40, 0x4100000000#40, 0x4100000049#40, 0x4100000045#40, 0x410000004E#40,
   0x4100000044#40, 0x41000000AE#40, 0x4100000042#40, 0x4100000060#40]
/-- A run ends in a session in which the byte `b` completes a chunk, at a chunk boundary. -/
def completes (b : Byte) : Result → Bool
  | .next s =>
    match exec (.rxByte b) s with
    | .next t => s.ph ≠ .idle && t.ck_v && t.ph = .rxLen
    | .fault _ => false
    | .refused _ => false
  | .fault _ => false
  | .refused _ => false
-- the parse clause of O54, at the place of a valid slot that is not `IDLE`
theorem witness_O54_parse : ∃ s t, Reachable s ∧ exec (.rxByte 0x82#8) s = .next t ∧ s.ph ≠ .idle ∧ t.ck_v = true ∧ t.ph = .rxLen := by
  have h : completes 0x82#8 (feed almostIend State.reset) = true := by decide +kernel
  cases hf : feed almostIend State.reset <;> rw [hf] at h
  · next s =>
    unfold completes at h
    cases ht : exec (.rxByte 0x82#8) s <;> simp only [ht] at h
    · next t =>
      simp only [Bool.and_eq_true, decide_eq_true_eq] at h
      exact ⟨s, t, reachable_feed reachable_reset hf, ht, h.1.1, h.1.2, h.2⟩
    · exact absurd h (by decide)
    · exact absurd h (by decide)
  · exact absurd h (by simp [completes])
  · exact absurd h (by simp [completes])
theorem witness_O56 : ∃ s, Reachable s ∧ s.ph = .fail := reachable_fail
-- O57: two machines that differ in a byte above `fill`
theorem witness_O57 : ∃ s', hello.Inv ∧ hello.agreeBelowFill { hello with buf := hello.buf ++ [(5, 0#8)] } ∧ step hello = .next s' :=
  ⟨_, hello_inv, ⟨rfl, by decide⟩, rfl⟩
-- O58 to O60
theorem witness_O58 : ∃ t, Instr.ckEmit ∈ [Instr.crcRead, .stRead, .ckLen, .ckType, .ckCrc, .ckFlags, .ckEmit, .sigEmit, .nop] ∧
    exec .ckEmit hello = .next t ∧ t.replies.length = 1 := ⟨_, by decide, rfl, rfl⟩
theorem witness_O59 : ∃ t, exec (.ckPush 0x68#8) assembling = .next t ∧ Reg.crc_r ∉ registersWritten (.ckPush 0x68#8) ∧
    t.buf.readByte 0 = some 0x68#8 := ⟨_, rfl, by decide, rfl⟩
theorem witness_O60 : ∃ t, hello.Inv ∧ hello.ck_v = true ∧ exec (.ckNew 0x49454E44#32) hello = .next t ∧ t.slot ≠ hello.slot :=
  ⟨_, hello_inv, rfl, rfl, by decide⟩

end Sys2Proof.Tests
end

section
/-! PROOFS of the scope family (00_scope.md): a step performs the decoded command (O6), the known CRC values (O14), and that no step
stops (O52). -/

namespace Sys2Proof.Machine

variable {s : State} {k : Result}

/-! ### What `step` does, by what the host has presented -/

theorem step_of_nothing (hb : s.inbox = []) : step s = .next s := by
  simp only [step, hb]

theorem step_of_reset {rest : List HostEvent} (hb : s.inbox = .reset :: rest) :
    step s = .next (State.resetEvent { s with inbox := rest }) := by
  simp only [step, hb]

theorem step_of_legal {w : CmdWord} {rest : List HostEvent} {i : Instr} (hb : s.inbox = .command w :: rest)
    (hd : decode w = .ok i) : step s = exec i { s with inbox := rest } := by
  simp only [step, hb, hd]

theorem step_of_illegal {w : CmdWord} {rest : List HostEvent} {e : DecodeError} (hb : s.inbox = .command w :: rest)
    (hd : decode w = .error e) : step s = illegalCommand { s with inbox := rest } := by
  simp only [step, hb, hd]

/-- Settles O6: the legal-word case of `step`. -/
theorem stepRunsTheDecodedCommand : Obligations.StepRunsTheDecodedCommand := by
  intro s w rest i hb hd
  exact step_of_legal hb hd

/-- Settles O14, by evaluating the CRC unit on the fixed messages (in the kernel: 72 shifts for the check string). -/
theorem crcKnownValues : Obligations.CrcKnownValues := by
  unfold Obligations.CrcKnownValues
  decide +kernel

/-! ### The tests that come first answer a next state when what follows them does -/

theorem exists_next_unlessDead (h : s.ph ≠ .dead → ∃ t, k = .next t) : ∃ t, unlessDead s k = .next t := by
  by_cases hp : s.ph = .dead
  · exact ⟨_, unlessDead_dead hp⟩
  · rw [unlessDead_live hp]
    exact h hp

theorem exists_next_onlyInAsm (h : s.ph = .asm → ∃ t, k = .next t) : ∃ t, onlyInAsm s k = .next t := by
  unfold onlyInAsm
  split_ifs with hp
  · exact h hp
  · exact ⟨_, rfl⟩

theorem exists_next_onlyIfSlotValid (h : s.ck_v = true → ∃ t, k = .next t) : ∃ t, onlyIfSlotValid s k = .next t := by
  unfold onlyIfSlotValid
  split_ifs with hv
  · exact h hv
  · exact ⟨_, rfl⟩

theorem exists_next_unlessGeneratorBusy (h : ∃ t, k = .next t) : ∃ t, unlessGeneratorBusy s k = .next t := by
  unfold unlessGeneratorBusy
  split_ifs
  · exact ⟨_, rfl⟩
  · exact h

theorem exists_next_illegalCommand (s : State) : ∃ t, illegalCommand s = .next t :=
  exists_next_unlessDead fun _ => ⟨_, rfl⟩

/-! ### A buffer access that has a value does not stop the machine -/

theorem exists_next_memRead {a : Nat} {f : Byte → Result} (ha : a < s.bufBytes.toNat) (hw : (s.buf.readByte a).isSome)
    (h : ∀ b, ∃ t, f b = .next t) : ∃ t, withAccess (memRead s a) f = .next t := by
  obtain ⟨b, hb⟩ := Option.isSome_iff_exists.1 hw
  rw [memRead_eq_ok.2 ⟨ha, hb⟩, withAccess_ok]
  exact h b

theorem exists_next_memReadRange {n : Nat} {f : List Byte → Result} (hn : n ≤ s.bufBytes.toNat) (hw : s.written n)
    (h : ∀ d, ∃ t, f d = .next t) : ∃ t, withAccess (memReadRange s 0 n) f = .next t := by
  obtain ⟨hlen, hholds⟩ := State.bytes_of_written hw
  have hread := memReadRange_of_holds hholds (by omega)
  rw [hlen] at hread
  rw [hread, withAccess_ok]
  exact h _

theorem exists_next_memWrite {a : Nat} {b : Byte} {f : State → Result} (ha : a < s.bufBytes.toNat)
    (h : ∀ s', ∃ t, f s' = .next t) : ∃ t, withAccess (memWrite s a b) f = .next t := by
  rw [memWrite_eq_ok.2 ⟨ha, rfl⟩, withAccess_ok]
  exact h _

/-! ### What the invariants say of the accesses of R44 and R51 -/

/-- No invariant speaks of the command port. -/
theorem State.Inv.setInbox (hs : s.Inv) (rest : List HostEvent) : State.Inv { s with inbox := rest } := by
  cases hs
  constructor <;> assumption

/-- R41 c: the data of a valid slot lies in the buffer and has been written. -/
theorem State.Inv.slotData (hs : s.Inv) (hv : s.ck_v = true) :
    s.ck_len.toNat ≤ s.bufBytes.toNat ∧ s.written s.ck_len.toNat := by
  rw [← hs.slotFill hv]
  exact ⟨BitVec.le_def.1 hs.fillLe, hs.fillWritten⟩

/-- R42: where the buffer is not full, `fill` is an index of it. -/
theorem State.Inv.fill_lt_of_ne (hs : s.Inv) (hf : s.fill ≠ s.bufBytes) : s.fill.toNat < s.bufBytes.toNat :=
  lt_of_le_of_ne (BitVec.le_def.1 hs.fillLe) (mt BitVec.eq_of_toNat_eq hf)

/-- R42: while data bytes are read, `fill` is an index of the buffer. -/
theorem State.Inv.fill_lt_of_rxData (hs : s.Inv) (hp : s.ph = .rxData) : s.fill.toNat < s.bufBytes.toNat :=
  lt_of_lt_of_le (BitVec.lt_def.1 (hs.dataRoom hp)) (BitVec.le_def.1 (hs.lenLe (.inr (.inl hp))))

/-! ### Progress, command by command -/

theorem exists_next_ckPush (hs : s.Inv) (b : Byte) : ∃ t, execCkPush b s = .next t := by
  refine exists_next_unlessDead fun _ => exists_next_onlyInAsm fun _ => ?_
  split_ifs with hf
  · exact ⟨_, rfl⟩
  · exact exists_next_memWrite (hs.fill_lt_of_ne hf) fun _ => ⟨_, rfl⟩

theorem exists_next_ckBuild (hs : s.Inv) : ∃ t, execCkBuild s = .next t :=
  exists_next_unlessDead fun _ => exists_next_onlyInAsm fun _ =>
    exists_next_memReadRange (BitVec.le_def.1 hs.fillLe) hs.fillWritten fun _ => ⟨_, rfl⟩

theorem exists_next_ckData (hs : s.Inv) (i : Word) : ∃ t, execCkData i s = .next t := by
  refine exists_next_unlessDead fun _ => exists_next_onlyIfSlotValid fun hv => ?_
  obtain ⟨hroom, hwritten⟩ := hs.slotData hv
  split_ifs with hi
  · exact ⟨_, rfl⟩
  · have hlt : i.toNat < s.ck_len.toNat := BitVec.lt_def.1 (BitVec.not_le.1 hi)
    exact exists_next_memRead (lt_of_lt_of_le hlt hroom) (hwritten _ hlt) fun _ => ⟨_, rfl⟩

theorem exists_next_ckEmit (hs : s.Inv) : ∃ t, execCkEmit s = .next t :=
  exists_next_unlessDead fun _ => exists_next_onlyIfSlotValid fun hv =>
    exists_next_memReadRange (hs.slotData hv).1 (hs.slotData hv).2 fun _ => ⟨_, rfl⟩

theorem exists_next_rxSigByte (b : Byte) (s : State) : ∃ t, rxSigByte b s = .next t := by
  unfold rxSigByte
  split_ifs <;> exact ⟨_, rfl⟩

theorem exists_next_rxLenByte (b : Byte) (s : State) : ∃ t, rxLenByte b s = .next t := by
  unfold rxLenByte
  dsimp only
  split_ifs <;> exact ⟨_, rfl⟩

theorem exists_next_rxTypeByte (b : Byte) (s : State) : ∃ t, rxTypeByte b s = .next t := by
  unfold rxTypeByte
  split_ifs <;> exact ⟨_, rfl⟩

theorem exists_next_rxCrcByte (b : Byte) (s : State) : ∃ t, rxCrcByte b s = .next t := by
  unfold rxCrcByte
  dsimp only
  split_ifs <;> exact ⟨_, rfl⟩

/-- Only the data phase touches the buffer; the four fields and the refusals answer in every state. -/
theorem exists_next_rxByte (hs : s.Inv) (b : Byte) : ∃ t, execRxByte b s = .next t := by
  unfold execRxByte
  cases hp : s.ph with
  | rxSig => exact exists_next_rxSigByte b _
  | rxLen => exact exists_next_rxLenByte b _
  | rxType => exact exists_next_rxTypeByte b _
  | rxData => exact exists_next_memWrite (hs.fill_lt_of_rxData hp) fun _ => ⟨_, rfl⟩
  | rxCrc => exact exists_next_rxCrcByte b _
  | idle | asm | fail | dead => exact ⟨_, rfl⟩

theorem exists_next_rxEnd (s : State) : ∃ t, execRxEnd s = .next t := by
  unfold execRxEnd
  cases s.ph with
  | rxLen => dsimp only; split_ifs <;> exact ⟨_, rfl⟩
  | idle | asm | rxSig | rxType | rxData | rxCrc | fail | dead => exact ⟨_, rfl⟩

/-- R12, R44, R51: under the invariants every command answers a next state. -/
theorem exists_next_exec (hs : s.Inv) (i : Instr) : ∃ t, exec i s = .next t := by
  cases i with
  | nop | stRead | ckClear | crcRead | tyCheck | rxBegin | sigEmit => exact exists_next_unlessDead fun _ => ⟨_, rfl⟩
  | crcInit | crcByte => exact exists_next_unlessDead fun _ => exists_next_unlessGeneratorBusy ⟨_, rfl⟩
  | ckLen | ckType | ckCrc | ckFlags => exact exists_next_unlessDead fun _ => exists_next_onlyIfSlotValid fun _ => ⟨_, rfl⟩
  | ckNew ty =>
    refine exists_next_unlessDead fun _ => ?_
    split_ifs <;> exact ⟨_, rfl⟩
  | ckPush b => exact exists_next_ckPush hs b
  | ckBuild => exact exists_next_ckBuild hs
  | rxByte b => exact exists_next_rxByte hs b
  | rxEnd => exact exists_next_rxEnd s
  | ckData i => exact exists_next_ckData hs i
  | ckEmit => exact exists_next_ckEmit hs

/-- Settles O52, by cases on what the host has presented: the one case that can reach the buffer is a legal word, and there the
invariants give every access a value (`exists_next_exec`). -/
theorem noStepStops : Obligations.NoStepStops := by
  intro s hs
  cases hb : s.inbox with
  | nil => exact ⟨_, step_of_nothing hb⟩
  | cons e rest =>
    cases e with
    | reset => exact ⟨_, step_of_reset hb⟩
    | command w =>
      cases hd : decode w with
      | ok i =>
        rw [step_of_legal hb hd]
        exact exists_next_exec (hs.setInbox rest) i
      | error e =>
        rw [step_of_illegal hb hd]
        exact exists_next_illegalCommand _

end Sys2Proof.Machine
end

section
/-! PROOFS of the state family (10_state.md): the reset state (O9, O50), the status word (O45), the invariants of R40 to R43 kept
by every step (O51) and what they say in every run (O53 to O56), the bytes of `buf` that nothing observes (O57), and the writes
column of R26 (O59). -/

namespace Sys2Proof.Machine

variable {s t c : State}

/-! ### A byte joins a type word, a remainder, the buffer -/

/-- A byte shifted into a type word moves the others up by one place, the first of them out. -/
theorem typeBytes_shiftIn (ty : Word) (b : Byte) : typeBytes (shiftIn ty b) = (typeBytes ty).drop 1 ++ [b] := by
  have h0 : typeByte0 (shiftIn ty b) = typeByte1 ty := by
    ext k hk
    grind [typeByte0, typeByte1, shiftIn]
  have h1 : typeByte1 (shiftIn ty b) = typeByte2 ty := by
    ext k hk
    grind [typeByte1, typeByte2, shiftIn]
  have h2 : typeByte2 (shiftIn ty b) = typeByte3 ty := by
    ext k hk
    grind [typeByte2, typeByte3, shiftIn]
  have h3 : typeByte3 (shiftIn ty b) = b := by
    ext k hk
    grind [typeByte3, shiftIn]
  simp [typeBytes, h0, h1, h2, h3]

theorem crcFold_concat (r : Word) (m : List Byte) (b : Byte) : crcFold r (m ++ [b]) = crcStep (crcFold r m) b := by
  simp [crcFold]

theorem State.written_zero (s : State) : s.written 0 := by simp [State.written]

theorem State.written_succ_of_store {n : Nat} {b : Byte} (hb : c.buf = s.buf.writeByte n b) (hw : s.written n) :
    c.written (n + 1) := by
  intro a ha
  rw [hb, Memory.readByte_writeByte]
  split_ifs with h
  · rfl
  · exact hw a (by omega)

theorem State.bytes_succ_of_store {n : Nat} {b : Byte} (hb : c.buf = s.buf.writeByte n b) :
    c.bytes (n + 1) = s.bytes n ++ [b] := by
  rw [State.bytes_succ_of_some (b := b) (by rw [hb, Memory.readByte_writeByte_same])]
  congr 1
  refine State.bytes_congr fun a ha => ?_
  rw [hb, Memory.readByte_writeByte_ne _ _ (Nat.ne_of_lt ha)]

/-- Below the capacity `fill` counts up without wrapping around. -/
theorem fill_succ_toNat (h : s.fill.toNat < s.bufBytes.toNat) : (s.fill + 1#32).toNat = s.fill.toNat + 1 := by
  bv_omega

/-! ### What the invariants say of one field -/

/-- R41 a, read backwards: where a slot cannot be, none is. -/
theorem State.Inv.noSlot (hs : s.Inv) (hi : s.ph ≠ .idle) (hl : s.ph ≠ .rxLen) : s.ck_v = false := by
  by_contra hv
  rcases hs.slotPlace (by simpa using hv) with h | h
  · exact hi h
  · exact hl h.1

/-- R125: the remainder of the type bytes, with the next one folded in. -/
theorem State.Inv.crcOfType_next (hs : s.Inv) (hp : s.ph = .rxType) (b : Byte) :
    crcStep (if s.cnt = 0#3 then Config.crcInit else s.crc_r) b =
      crcFold Config.crcInit ((typeBytes (shiftIn s.ck_type b)).drop (3 - s.cnt.toNat)) := by
  have hcrc : (if s.cnt = 0#3 then Config.crcInit else s.crc_r) =
      crcFold Config.crcInit ((typeBytes s.ck_type).drop (4 - s.cnt.toNat)) := by
    split_ifs with hc
    · rw [hc]; rfl
    · exact hs.crcOfType hp hc
  have hle : s.cnt.toNat ≤ 3 := BitVec.le_def.1 (hs.cntLeThree (by simp [hp]) (by simp [hp]) (by simp [hp]))
  rw [hcrc, typeBytes_shiftIn, ← crcFold_concat, List.drop_append_of_le_length (by simp [typeBytes]), List.drop_drop]
  congr 4
  omega

/-! ### Three ways to meet all the invariants -/

/-- A state with nothing counted and no chunk begun, as reset and the commands that end one operation make it; a slot, if there is
one, is what R41 says. -/
theorem State.Inv.of_resting (hbuf : c.buf.wf) (hfill : c.fill ≤ c.bufBytes) (hw : c.written c.fill.toNat)
    (hcnt : c.cnt = 0#3) (herr : c.err = .ok) (hp : c.ph ∈ [Phase.idle, .asm, .rxSig, .rxLen])
    (hasm : c.ph = .asm → tyAlpha c.ck_type = true) (hsig : c.ph = .rxSig → c.rx_m = true)
    (hslot : c.ck_v = true → (c.ph = .idle ∨ c.ph = .rxLen ∧ c.rx_m = true) ∧ c.fill = c.ck_len ∧
      c.ck_crc = crc32 (typeBytes c.ck_type ++ c.bytes c.fill.toNat) ∧ tyAlpha c.ck_type = true) : c.Inv :=
  { memWf := hbuf
    cntLeThree := fun _ _ _ => by simp [hcnt]
    cntZero := fun _ => hcnt
    fillLe := hfill
    fillWritten := hw
    sigMode := hsig
    slotPlace := fun hv => (hslot hv).1.imp_right fun ⟨hl, hm⟩ => ⟨hl, hcnt, hm⟩
    slotFill := fun hv => let ⟨_, hlen, _, _⟩ := hslot hv; hlen
    slotCrc := fun hv => let ⟨_, _, hcrc, _⟩ := hslot hv; hcrc
    slotAlpha := fun hv => let ⟨_, _, _, halpha⟩ := hslot hv; halpha
    asmAlpha := hasm
    lenLe := by rintro (h | h | h) <;> simp [h] at hp
    dataRoom := fun h => by simp [h] at hp
    dataDone := fun h => by simp [h] at hp
    tyLatched := by rintro (h | h) <;> simp [h] at hp
    crcOfType := fun h => by simp [h] at hp
    crcOfData := by rintro (h | h) <;> simp [h] at hp
    errOk := fun _ _ => herr
    errFail := fun h => by simp [h] at hp
    errDead := fun h => by simp [h] at hp }

/-- A state of a parse whose type field is done: in the data, or with all of it in (R126). -/
theorem State.Inv.of_typeDone (hbuf : c.buf.wf) (hw : c.written c.fill.toNat) (hcnt : c.cnt = 0#3) (hv : c.ck_v = false)
    (herr : c.err = .ok) (hlen : c.ck_len ≤ c.bufBytes)
    (hp : c.ph = .rxData ∧ c.fill < c.ck_len ∨ c.ph = .rxCrc ∧ c.fill = c.ck_len)
    (hty : c.ty_bad = !tyValid c.ck_type)
    (hcrc : c.crc_r = crcFold Config.crcInit (typeBytes c.ck_type ++ c.bytes c.fill.toNat)) : c.Inv :=
  { memWf := hbuf
    cntLeThree := fun _ _ _ => by simp [hcnt]
    cntZero := fun _ => hcnt
    fillLe := by
      rcases hp with ⟨-, h⟩ | ⟨-, h⟩
      · exact BitVec.le_trans (BitVec.le_of_lt h) hlen
      · rwa [h]
    fillWritten := hw
    sigMode := fun h => by simp [h] at hp
    slotPlace := by simp [hv]
    slotFill := by simp [hv]
    slotCrc := by simp [hv]
    slotAlpha := by simp [hv]
    asmAlpha := fun h => by simp [h] at hp
    lenLe := fun _ => hlen
    dataRoom := fun h => by simpa [h] using hp
    dataDone := fun h => by simpa [h] using hp
    tyLatched := fun _ => hty
    crcOfType := fun h => by simp [h] at hp
    crcOfData := fun _ => hcrc
    errOk := fun _ _ => herr
    errFail := fun h => by simp [h] at hp
    errDead := fun h => by simp [h] at hp }

/-- A state that a failure or the fatal ending of a command has made (R182, R183). -/
theorem State.Inv.of_stopped (hbuf : c.buf.wf) (hfill : c.fill ≤ c.bufBytes) (hw : c.written c.fill.toNat)
    (hv : c.ck_v = false)
    (hp : c.ph = .fail ∧
        c.err ∈ [Status.invalidChunkType, .truncatedChunk, .crcMismatch, .badSignature, .unsupportedLength] ∨
      c.ph = .dead ∧ c.err = .fatalLength) : c.Inv :=
  { memWf := hbuf
    cntLeThree := fun _ hf hd => by simp [hf, hd] at hp
    cntZero := by rintro (h | h | h) <;> simp [h] at hp
    fillLe := hfill
    fillWritten := hw
    sigMode := fun h => by simp [h] at hp
    slotPlace := by simp [hv]
    slotFill := by simp [hv]
    slotCrc := by simp [hv]
    slotAlpha := by simp [hv]
    asmAlpha := fun h => by simp [h] at hp
    lenLe := by rintro (h | h | h) <;> simp [h] at hp
    dataRoom := fun h => by simp [h] at hp
    dataDone := fun h => by simp [h] at hp
    tyLatched := by rintro (h | h) <;> simp [h] at hp
    crcOfType := fun h => by simp [h] at hp
    crcOfData := by rintro (h | h) <;> simp [h] at hp
    errOk := fun hf hd => by simp [hf, hd] at hp
    errFail := fun h => by simpa [h] using hp
    errDead := fun h => by simpa [h] using hp }

/-- The replies are in no invariant. -/
theorem State.Inv.answer (hs : s.Inv) (out : List Byte) (st : Status) (val : Word) : (s.answer out st val).Inv := by
  cases hs
  constructor <;> assumption

/-- A failed session keeps the buffer and what `fill` counts (R182). -/
theorem State.Inv.failed (hs : s.Inv) {st : Status}
    (hst : st ∈ [Status.invalidChunkType, .truncatedChunk, .crcMismatch, .badSignature, .unsupportedLength])
    (len crc : Word) (n : BitVec 3) :
    State.Inv { s with ck_len := len, ck_crc := crc, cnt := n, ph := .fail, err := st, ck_v := false } :=
  .of_stopped hs.memWf hs.fillLe hs.fillWritten rfl (.inl ⟨rfl, hst⟩)

/-- R190: the way back to rest keeps the buffer only. -/
theorem State.Inv.restarted (hs : s.Inv) (p : Phase) (ty : Word) (m : Bool) (hp : p ∈ [Phase.idle, .asm, .rxSig, .rxLen])
    (hasm : p = .asm → tyAlpha ty = true) (hsig : p = .rxSig → m = true) :
    State.Inv { s.restart p with ck_type := ty, rx_m := m } :=
  .of_resting hs.memWf (BitVec.le_def.2 (Nat.zero_le _)) (State.written_zero _) rfl rfl hp hasm hsig (by simp)

/-! ### The effects that write the state keep the invariants -/

theorem State.Inv.pushed (hs : s.Inv) (hp : s.ph = .asm) (hf : s.fill < s.bufBytes) (b : Byte) :
    State.Inv { s with buf := s.buf.writeByte s.fill.toNat b, fill := s.fill + 1#32 } := by
  have hv := hs.noSlot (by simp [hp]) (by simp [hp])
  have hsucc := fill_succ_toNat (BitVec.lt_def.1 hf)
  exact { hs with
    memWf := Memory.writeByte_wf _ _ hs.memWf
    fillLe := by bv_omega
    fillWritten := by
      rw [hsucc]
      exact State.written_succ_of_store rfl hs.fillWritten
    slotFill := by simp [hv]
    slotCrc := by simp [hv]
    dataRoom := by simp [hp]
    dataDone := by simp [hp]
    crcOfData := by simp [hp] }

theorem State.Inv.built (hs : s.Inv) (hp : s.ph = .asm) {d : List Byte} (hd : memReadRange s 0 s.fill.toNat = .ok d) :
    State.Inv { s with
      ck_len := s.fill, crc_r := crc32 (typeBytes s.ck_type ++ d) ^^^ Config.crcXorOut,
      ck_crc := crc32 (typeBytes s.ck_type ++ d), ck_v := true, ph := .idle } := by
  obtain ⟨hlen, hread⟩ := memReadRange_eq_ok.1 hd
  have hbytes : s.bytes s.fill.toNat = d := by
    rw [← hlen]
    exact State.bytes_of_holds fun a ha => by simpa using (hread a (by omega)).2
  exact .of_resting hs.memWf hs.fillLe hs.fillWritten (hs.cntZero (.inr (.inl hp)))
    (hs.errOk (by simp [hp]) (by simp [hp])) (by simp) (by simp) (by simp)
    fun _ => ⟨.inl rfl, rfl, by rw [← hbytes]; rfl, hs.asmAlpha hp⟩

theorem State.Inv.crcWritten (hs : s.Inv) (hg : s.ph.usesGenerator = false) (x : Word) :
    State.Inv { s with crc_r := x } := by
  have hfree : ¬(s.ph = .rxType ∨ s.ph = .rxData ∨ s.ph = .rxCrc) := by
    rw [← Phase.usesGenerator_iff, hg]
    decide
  push Not at hfree
  exact { hs with
    crcOfType := by simp [hfree]
    crcOfData := by simp [hfree] }

theorem State.Inv.sigCounted (hs : s.Inv) (hp : s.ph = .rxSig) :
    State.Inv { s with ck_v := false, cnt := s.cnt + 1#3 } :=
  { hs with
    cntLeThree := by simp [hp]
    cntZero := by simp [hp]
    slotPlace := by simp
    slotFill := by simp
    slotCrc := by simp
    slotAlpha := by simp
    crcOfType := by simp [hp] }

theorem State.Inv.sigDone (hs : s.Inv) (hp : s.ph = .rxSig) :
    State.Inv { s with ck_v := false, ph := .rxLen, cnt := 0#3 } :=
  .of_resting hs.memWf hs.fillLe hs.fillWritten rfl (hs.errOk (by simp [hp]) (by simp [hp])) (by simp) (by simp) (by simp)
    (by simp)

/-- Inside a field of four bytes the counter stays at most 3 (R40). -/
theorem cnt_succ_le_three {n : BitVec 3} (hle : n ≤ 3#3) (hne : n ≠ 3#3) : n + 1#3 ≤ 3#3 := by
  bv_omega

theorem State.Inv.lenCounted (hs : s.Inv) (hp : s.ph = .rxLen) (hc : s.cnt ≠ 3#3) (len : Word) :
    State.Inv { s with ck_v := false, ck_len := len, cnt := s.cnt + 1#3 } :=
  { hs with
    cntLeThree := fun h1 h2 h3 => cnt_succ_le_three (hs.cntLeThree h1 h2 h3) hc
    cntZero := by simp [hp]
    slotPlace := by simp
    slotFill := by simp
    slotCrc := by simp
    slotAlpha := by simp
    lenLe := by simp [hp]
    dataRoom := by simp [hp]
    dataDone := by simp [hp]
    crcOfType := by simp [hp] }

theorem State.Inv.lenDone (hs : s.Inv) (hp : s.ph = .rxLen) {len : Word} (hl : len ≤ s.bufBytes) :
    State.Inv { s with ck_v := false, ck_len := len, cnt := 0#3, ph := .rxType } :=
  { hs with
    cntLeThree := by simp
    cntZero := by simp
    sigMode := by simp
    slotPlace := by simp
    slotFill := by simp
    slotCrc := by simp
    slotAlpha := by simp
    asmAlpha := by simp
    lenLe := fun _ => hl
    dataRoom := by simp
    dataDone := by simp
    tyLatched := by simp
    crcOfType := by simp
    crcOfData := by simp
    errOk := fun _ _ => hs.errOk (by simp [hp]) (by simp [hp])
    errFail := by simp
    errDead := by simp }

theorem State.Inv.typeCounted (hs : s.Inv) (hp : s.ph = .rxType) (hc : s.cnt ≠ 3#3) (b : Byte) :
    State.Inv { s with
      ck_v := false, ck_type := shiftIn s.ck_type b,
      crc_r := crcStep (if s.cnt = 0#3 then Config.crcInit else s.crc_r) b, cnt := s.cnt + 1#3 } := by
  have hle := hs.cntLeThree (by simp [hp]) (by simp [hp]) (by simp [hp])
  have hdrop : 4 - (s.cnt + 1#3).toNat = 3 - s.cnt.toNat := by bv_omega
  exact { hs with
    cntLeThree := fun _ _ _ => cnt_succ_le_three hle hc
    cntZero := by simp [hp]
    slotPlace := by simp
    slotFill := by simp
    slotCrc := by simp
    slotAlpha := by simp
    asmAlpha := by simp [hp]
    tyLatched := by simp [hp]
    crcOfType := fun _ _ => by rw [hs.crcOfType_next hp b, hdrop]
    crcOfData := by simp [hp] }

theorem State.Inv.typeDone (hs : s.Inv) (hp : s.ph = .rxType) (hc : s.cnt = 3#3) (b : Byte) :
    State.Inv { s with
      ck_v := false, ck_type := shiftIn s.ck_type b, crc_r := crcStep s.crc_r b,
      ty_bad := !tyValid (shiftIn s.ck_type b), cnt := 0#3, fill := 0#32,
      ph := if s.ck_len = 0#32 then .rxCrc else .rxData } := by
  have hcrc := hs.crcOfType_next hp b
  rw [hc] at hcrc
  refine .of_typeDone hs.memWf (State.written_zero _) rfl rfl (hs.errOk (by simp [hp]) (by simp [hp]))
    (hs.lenLe (.inl hp)) ?_ rfl ?_
  · by_cases h : s.ck_len = 0#32
    · exact .inr ⟨if_pos h, h.symm⟩
    · exact .inl ⟨if_neg h, by bv_omega⟩
  · simpa [State.bytes_zero] using hcrc

theorem State.Inv.dataStored (hs : s.Inv) (hp : s.ph = .rxData) (b : Byte) :
    State.Inv { s with
      ck_v := false, buf := s.buf.writeByte s.fill.toNat b, crc_r := crcStep s.crc_r b,
      fill := s.fill + 1#32, ph := if s.fill + 1#32 = s.ck_len then .rxCrc else .rxData } := by
  have hroom := hs.dataRoom hp
  have hlen := hs.lenLe (.inr (.inl hp))
  have hsucc := fill_succ_toNat (hs.fill_lt_of_rxData hp)
  refine .of_typeDone (Memory.writeByte_wf _ _ hs.memWf) ?_ (hs.cntZero (.inr (.inr hp))) rfl
    (hs.errOk (by simp [hp]) (by simp [hp])) hlen ?_ (hs.tyLatched (.inl hp)) ?_
  · rw [hsucc]
    exact State.written_succ_of_store rfl hs.fillWritten
  · by_cases h : s.fill + 1#32 = s.ck_len
    · exact .inr ⟨if_pos h, h⟩
    · exact .inl ⟨if_neg h, by bv_omega⟩
  · rw [hsucc, State.bytes_succ_of_store rfl, ← List.append_assoc, crcFold_concat, ← hs.crcOfData (.inl hp)]

theorem State.Inv.crcCounted (hs : s.Inv) (hp : s.ph = .rxCrc) (hc : s.cnt ≠ 3#3) (crc : Word) :
    State.Inv { s with ck_v := false, ck_crc := crc, cnt := s.cnt + 1#3 } :=
  { hs with
    cntLeThree := fun h1 h2 h3 => cnt_succ_le_three (hs.cntLeThree h1 h2 h3) hc
    cntZero := by simp [hp]
    slotPlace := by simp
    slotFill := by simp
    slotCrc := by simp
    slotAlpha := by simp
    crcOfType := by simp [hp] }

/-- R127: the type of a chunk that is not refused passes the full gate. -/
theorem State.Inv.tyValid_of_rxCrc (hs : s.Inv) (hp : s.ph = .rxCrc) (ht : s.ty_bad = false) : tyValid s.ck_type = true := by
  simpa [ht] using hs.tyLatched (.inr hp)

theorem tyAlpha_of_tyValid {ty : Word} (h : tyValid ty = true) : tyAlpha ty = true := (Bool.and_eq_true_iff.1 h).1

theorem State.Inv.chunkDone (hs : s.Inv) (hp : s.ph = .rxCrc) (ht : s.ty_bad = false) {crc : Word}
    (hx : crc = s.crc_r ^^^ Config.crcXorOut) :
    State.Inv { s with ck_crc := crc, ck_v := true, cnt := 0#3, ph := if s.rx_m then .rxLen else .idle } := by
  refine .of_resting hs.memWf hs.fillLe hs.fillWritten rfl (hs.errOk (by simp [hp]) (by simp [hp])) ?_ ?_ ?_
    fun _ => ⟨?_, hs.dataDone hp, ?_, tyAlpha_of_tyValid (hs.tyValid_of_rxCrc hp ht)⟩
  · cases s.rx_m <;> simp
  · cases s.rx_m <;> simp
  · cases s.rx_m <;> simp
  · cases s.rx_m <;> simp
  · rw [hx, hs.crcOfData (.inr hp)]
    rfl

theorem State.Inv.sessionClosed (hs : s.Inv) (hp : s.ph = .rxLen) (hc : s.cnt = 0#3) : State.Inv { s with ph := .idle } :=
  .of_resting hs.memWf hs.fillLe hs.fillWritten hc (hs.errOk (by simp [hp]) (by simp [hp])) (by simp) (by simp) (by simp)
    fun hv => ⟨.inl rfl, hs.slotFill hv, hs.slotCrc hv, hs.slotAlpha hv⟩

/-- Every effect of a command keeps the invariants: the refusals and reads write nothing, each other effect has its lemma above. -/
theorem Effect.inv {i : Instr} {out : List Byte} {st : Status} {val : Word} (he : Effect s i c out st val) (hs : s.Inv) :
    c.Inv := by
  cases he with
  | dead | initBusy | byteBusy | newNotAlpha | pushNotAsm | buildNotAsm | slotInvalid | badIndex | byteNoSession
  | endNoSession | byteFailed | endFailed => exact hs
  | nop | stRead | crcRead | tyCheck | ckLen | ckType | ckCrc | ckFlags | ckData | ckEmit | sigEmit => exact hs
  | ckClear => exact hs.restarted .idle s.ck_type s.rx_m (by simp) (by simp) (by simp)
  | ckNew ty _ ha => exact hs.restarted .asm ty s.rx_m (by simp) (fun _ => ha) (by simp)
  | rxBegin m => exact hs.restarted _ s.ck_type m (by cases m <;> simp) (by cases m <;> simp) (by cases m <;> simp)
  | crcInit _ hg => exact hs.crcWritten hg _
  | crcByte _ _ hg => exact hs.crcWritten hg _
  | pushFull => exact .of_stopped hs.memWf hs.fillLe hs.fillWritten rfl (.inr ⟨rfl, rfl⟩)
  | push b hp hf => exact hs.pushed hp hf b
  | build d hp hd => exact hs.built hp hd
  | sigBad | lenBad | crcBadType | crcBad | endSig | endShort => exact hs.failed (by simp) _ _ _
  | sigLast b hp => exact hs.sigDone hp
  | sigNext b hp => exact hs.sigCounted hp
  | lenNext b hp hc => exact hs.lenCounted hp hc _
  | lenLast b hp _ hl => exact hs.lenDone hp hl
  | typeNext b hp hc => exact hs.typeCounted hp hc b
  | typeLast b hp hc => exact hs.typeDone hp hc b
  | data b hp => exact hs.dataStored hp b
  | crcNext b hp hc => exact hs.crcCounted hp hc _
  | crcGood b hp _ ht hx => exact hs.chunkDone hp ht hx
  | endOk hp hc => exact hs.sessionClosed hp hc

theorem State.Inv.resetEvent (hs : s.Inv) : s.resetEvent.Inv :=
  .of_resting hs.memWf (BitVec.le_def.2 (Nat.zero_le _)) (State.written_zero _) rfl rfl (by simp) (by simp) (by simp) (by simp)

/-- Settles O51, by cases on what the step took: the one with work in it is a command performed (`Effect.inv`). -/
theorem invariantsKeptByEveryStep : Obligations.InvariantsKeptByEveryStep := by
  intro s t hs h
  rcases step_cases h with ⟨-, rfl⟩ | ⟨rest, -, rfl⟩ | ⟨w, rest, i, c, out, st, val, -, -, he, rfl⟩ | ⟨w, rest, e, -, -, rfl⟩
  · exact hs
  · exact (hs.setInbox rest).resetEvent
  · exact (he.inv (hs.setInbox rest)).answer out st val
  · exact (hs.setInbox rest).answer _ _ _

/-! ### The reset state, the status word -/

theorem State.Inv.reset (cap : Word) : State.Inv { State.reset with bufBytes := cap } :=
  .of_resting reset_buf_wf (BitVec.le_def.2 (Nat.zero_le _)) (State.written_zero _) rfl rfl (by simp [State.reset])
    (by simp [State.reset]) (by simp [State.reset]) (by simp [State.reset])

/-- Settles O50: at reset nothing is counted and no chunk is begun. -/
theorem invariantsHoldAtReset : Obligations.InvariantsHoldAtReset := State.Inv.reset

/-- Settles O9: R39 register by register, and the answer of `CRC.READ` by evaluation. -/
theorem resetStateValues : Obligations.ResetStateValues := by
  refine ⟨rfl, rfl, rfl, rfl, rfl, rfl, rfl, rfl, rfl, rfl, rfl, Memory.readByte_nil, rfl⟩

/-- R36 bit by bit: the fields of the status word side by side, the phase lowest. -/
theorem statusWord_getLsbD (s : State) (k : Nat) : (statusWord s).getLsbD k =
    if k < 4 then (phaseCode s.ph).getLsbD k
    else if k - 4 < 1 then (BitVec.ofBool s.ck_v).getLsbD (k - 4)
    else if k - 5 < 1 then (BitVec.ofBool s.ty_bad).getLsbD (k - 5)
    else if k - 6 < 1 then (BitVec.ofBool s.rx_m).getLsbD (k - 6)
    else if k - 7 < 1 then false
    else if k - 8 < 3 then s.cnt.getLsbD (k - 8)
    else if k - 11 < 1 then false
    else if k - 12 < 4 then (statusCode s.err).getLsbD (k - 12)
    else false := by
  have hcast : statusWord s =
    (0#16 ++ statusCode s.err ++ 0#1 ++ s.cnt ++ 0#1 ++ BitVec.ofBool s.rx_m ++ BitVec.ofBool s.ty_bad ++
      BitVec.ofBool s.ck_v ++ phaseCode s.ph : BitVec (16 + 4 + 1 + 3 + 1 + 1 + 1 + 1 + 4)).cast rfl := rfl
  rw [hcast]
  simp only [BitVec.getLsbD_cast, BitVec.getLsbD_append, BitVec.getLsbD_zero, Nat.sub_sub]

theorem extractLsb'_eq_of_getLsbD {w n i : Nat} {x : BitVec w} {y : BitVec n}
    (h : ∀ k < n, x.getLsbD (i + k) = y.getLsbD k) : x.extractLsb' i n = y := by
  refine BitVec.eq_of_getLsbD_eq fun k hk => ?_
  simpa [hk] using h k hk

/-- Settles O45, each field from the bits of the word. -/
theorem statusWordFields : Obligations.StatusWordFields := by
  refine ⟨fun s => ⟨?ph, ?ck_v, ?ty_bad, ?rx_m, ?zero7, ?cnt, ?zero11, ?err, ?high⟩, rfl, rfl, rfl⟩
  case ck_v | ty_bad | rx_m | zero7 | zero11 =>
    rw [statusWord_getLsbD]
    simp
  case ph | cnt | err | high =>
    refine extractLsb'_eq_of_getLsbD fun k hk => ?_
    rw [statusWord_getLsbD]
    interval_cases k <;> simp

/-! ### What the invariants say in every run -/

/-- The induction over runs: the invariants hold in every state a machine of any capacity can reach. -/
theorem Reachable.inv (h : Reachable s) : s.Inv := by
  induction h with
  | reset cap => exact State.Inv.reset cap
  | present s e _ ih => exact ih.setInbox _
  | step s t _ hstep ih => exact invariantsKeptByEveryStep s t ih hstep

/-- Settles O53, from the invariants. -/
theorem counterBoundsInEveryRun : Obligations.CounterBoundsInEveryRun := by
  intro s hr
  have hs := hr.inv
  have hph : (phaseCode s.ph).toNat ≤ 8 := by cases s.ph <;> decide
  refine ⟨hph, Nat.le_of_lt_succ s.cnt.isLt, ?_, hs.cntZero⟩
  by_contra hcnt
  push Not at hcnt
  obtain ⟨hgt, hsig, hfail, hdead⟩ := hcnt
  exact absurd (BitVec.le_def.1 (hs.cntLeThree hsig hfail hdead)) (Nat.not_le.2 hgt)

/-- R41: a valid slot holds the data that its length and CRC are about. -/
theorem State.Inv.slotIsChunk (hs : s.Inv) (hv : s.ck_v = true) :
    ∃ d : List Byte, d.length = s.ck_len.toNat ∧ s.holds d ∧ s.ck_crc = crc32 (typeBytes s.ck_type ++ d) := by
  obtain ⟨hlen, hholds⟩ := State.bytes_of_written hs.fillWritten
  exact ⟨_, by rw [hlen, hs.slotFill hv], hholds, hs.slotCrc hv⟩

theorem State.Inv.slotErr (hs : s.Inv) (hv : s.ck_v = true) : s.err = .ok := by
  rcases hs.slotPlace hv with h | ⟨h, -⟩ <;> exact hs.errOk (by simp [h]) (by simp [h])

/-- R127: an `RX.BYTE` in a session leaves a valid slot only where the verdict on a whole chunk is good. -/
theorem Effect.tyValid_of_rxByte {b : Byte} {out : List Byte} {st : Status} {val : Word}
    (he : Effect s (.rxByte b) c out st val) (hs : s.Inv) (hp : s.ph ≠ .idle) (hv : c.ck_v = true) :
    tyValid c.ck_type = true := by
  cases he with
  | crcGood _ hc _ ht _ => exact hs.tyValid_of_rxCrc hc ht
  | dead _ hd => simp [hs.noSlot (by simp [hd]) (by simp [hd])] at hv
  | byteNoSession _ ha => simp [hs.noSlot hp (by simp [ha.resolve_left hp])] at hv
  | byteFailed _ hf => simp [hs.noSlot (by simp [hf]) (by simp [hf])] at hv
  | slotInvalid _ hi => simp at hi
  | sigBad | sigLast | sigNext | lenNext | lenLast | lenBad | typeNext | typeLast | data | crcNext | crcBadType | crcBad =>
    simp at hv

/-- Settles O54: R41 from the invariants, the full gate by cases on what the byte did. -/
theorem validSlotIsAnAuthenticChunk : Obligations.ValidSlotIsAnAuthenticChunk := by
  refine ⟨fun s hr hv => ?_, fun s t b hr h hp hv => ?_⟩
  · have hs := hr.inv
    have hlen : s.ck_len ≤ s.bufBytes := by
      rw [← hs.slotFill hv]
      exact hs.fillLe
    exact ⟨hs.slotPlace hv, hlen, hs.slotFill hv, hs.slotIsChunk hv, hs.slotAlpha hv, hs.slotErr hv⟩
  · obtain ⟨c, out, st, val, he, rfl⟩ := exec_effect h
    exact he.tyValid_of_rxByte hr.inv hp hv

/-- Settles O55, from the invariants. -/
theorem fillBoundsInEveryRun : Obligations.FillBoundsInEveryRun := by
  intro s hr
  have hs := hr.inv
  exact ⟨hs.fillLe, fun hp => ⟨hs.asmAlpha hp, hs.noSlot (by simp [hp]) (by simp [hp])⟩,
    fun hp => ⟨hs.dataRoom hp, hs.lenLe (.inr (.inl hp))⟩, hs.lenLe⟩

/-- Settles O56, from the invariants, through the status numbers of R170. -/
theorem errInEveryRun : Obligations.ErrInEveryRun := by
  intro s hr
  have hs := hr.inv
  refine ⟨fun hf hd => ?_, fun hp => ⟨?_, hs.noSlot (by simp [hp]) (by simp [hp])⟩,
    fun hp => ⟨?_, hs.noSlot (by simp [hp]) (by simp [hp])⟩⟩
  · rw [hs.errOk hf hd]
    decide
  · have herr := hs.errFail hp
    revert herr
    cases s.err <;> decide
  · rw [hs.errDead hp]
    decide

/-! ### Two machines that differ only in `buf` from `fill` up -/

/-- Where `x` goes on, `y` goes on to a state that differs from that of `x` only in `buf` from `fill` up: what each shared operation
and each command keeps (93 U1). -/
def AlikeBelowFill (x y : Result) : Prop := ∀ s', x = .next s' → ∃ t', y = .next t' ∧ s'.agreeBelowFill t'

theorem State.agreeBelowFill.exists_buf (h : s.agreeBelowFill t) :
    ∃ m : Memory, t = { s with buf := m } ∧ ∀ a < s.fill.toNat, m.readByte a = s.buf.readByte a := ⟨t.buf, h⟩

theorem State.agreeBelowFill.ph (h : s.agreeBelowFill t) : t.ph = s.ph := (congrArg State.ph h.1 :)

theorem State.agreeBelowFill.ck_v (h : s.agreeBelowFill t) : t.ck_v = s.ck_v := (congrArg State.ck_v h.1 :)

theorem State.agreeBelowFill.cnt (h : s.agreeBelowFill t) : t.cnt = s.cnt := (congrArg State.cnt h.1 :)

theorem State.agreeBelowFill.rx_m (h : s.agreeBelowFill t) : t.rx_m = s.rx_m := (congrArg State.rx_m h.1 :)

theorem State.agreeBelowFill.inbox (h : s.agreeBelowFill t) : t.inbox = s.inbox := (congrArg State.inbox h.1 :)

theorem State.agreeBelowFill.err (h : s.agreeBelowFill t) : t.err = s.err := (congrArg State.err h.1 :)

theorem State.agreeBelowFill.answer (h : s.agreeBelowFill t) (out : List Byte) (st : Status) (val : Word) :
    (s.answer out st val).agreeBelowFill (t.answer out st val) := by
  obtain ⟨m, rfl, hm⟩ := h.exists_buf
  exact ⟨rfl, hm⟩

theorem State.agreeBelowFill.setInbox (h : s.agreeBelowFill t) (rest : List HostEvent) :
    State.agreeBelowFill { s with inbox := rest } { t with inbox := rest } := by
  obtain ⟨m, rfl, hm⟩ := h.exists_buf
  exact ⟨rfl, hm⟩

theorem State.agreeBelowFill.resetEvent (h : s.agreeBelowFill t) : s.resetEvent.agreeBelowFill t.resetEvent := by
  obtain ⟨m, rfl, -⟩ := h.exists_buf
  exact ⟨rfl, by simp⟩

/-! The shared operations, one lemma each -/

theorem alike_next (h : s.agreeBelowFill t) : AlikeBelowFill (.next s) (.next t) := by
  intro s' hs'
  cases hs'
  exact ⟨t, rfl, h⟩

theorem alike_respondOk (val : Word) (h : s.agreeBelowFill t) : AlikeBelowFill (respondOk val s) (respondOk val t) :=
  alike_next (h.answer [] .ok val)

theorem alike_emitOk (out : List Byte) (h : s.agreeBelowFill t) : AlikeBelowFill (emitOk out s) (emitOk out t) :=
  alike_next (h.answer out .ok 0#32)

theorem alike_raise (e : Ending) (h : s.agreeBelowFill t) : AlikeBelowFill (raise e s) (raise e t) := by
  obtain ⟨m, rfl, hm⟩ := h.exists_buf
  cases e <;> exact alike_next ⟨rfl, hm⟩

section
variable {x x' y y' k k' : Result}

theorem alike_ite {p q : Prop} [Decidable p] [Decidable q] (hpq : p ↔ q) (hx : AlikeBelowFill x y)
    (hx' : AlikeBelowFill x' y') : AlikeBelowFill (if p then x else x') (if q then y else y') := by
  simp only [hpq]
  split_ifs
  · exact hx
  · exact hx'

theorem alike_unlessDead (h : s.agreeBelowFill t) (hk : AlikeBelowFill k k') :
    AlikeBelowFill (unlessDead s k) (unlessDead t k') := alike_ite (by rw [h.ph]) (alike_raise _ h) hk

theorem alike_onlyInAsm (h : s.agreeBelowFill t) (hk : AlikeBelowFill k k') :
    AlikeBelowFill (onlyInAsm s k) (onlyInAsm t k') := alike_ite (by rw [h.ph]) hk (alike_raise _ h)

theorem alike_unlessGeneratorBusy (h : s.agreeBelowFill t) (hk : AlikeBelowFill k k') :
    AlikeBelowFill (unlessGeneratorBusy s k) (unlessGeneratorBusy t k') := alike_ite (by rw [h.ph]) (alike_raise _ h) hk

theorem alike_onlyIfSlotValid (h : s.agreeBelowFill t) (hk : s.ck_v = true → AlikeBelowFill k k') :
    AlikeBelowFill (onlyIfSlotValid s k) (onlyIfSlotValid t k') := by
  unfold onlyIfSlotValid
  rw [h.ck_v]
  split_ifs with hv
  · exact hk hv
  · exact alike_raise _ h

end

theorem alike_illegalCommand (h : s.agreeBelowFill t) : AlikeBelowFill (illegalCommand s) (illegalCommand t) :=
  alike_unlessDead h (alike_raise _ h)

/-- A read below `fill` gives the same byte. -/
theorem alike_memRead {a : Nat} {f f' : Byte → Result} (h : s.agreeBelowFill t) (ha : a < s.fill.toNat)
    (hf : ∀ b, AlikeBelowFill (f b) (f' b)) :
    AlikeBelowFill (withAccess (memRead s a) f) (withAccess (memRead t a) f') := by
  obtain ⟨m, rfl, hm⟩ := h.exists_buf
  have hread : memRead { s with buf := m } a = memRead s a := by simp only [memRead, hm a ha]
  rw [hread]
  intro s' hs'
  obtain ⟨b, hb, hfb⟩ := withAccess_eq_next hs'
  rw [hb]
  exact hf b s' hfb

/-- A range of reads below `fill` gives the same bytes. -/
theorem alike_memReadRange {n : Nat} {f f' : List Byte → Result} (h : s.agreeBelowFill t) (hn : n ≤ s.fill.toNat)
    (hf : ∀ d, AlikeBelowFill (f d) (f' d)) :
    AlikeBelowFill (withAccess (memReadRange s 0 n) f) (withAccess (memReadRange t 0 n) f') := by
  obtain ⟨m, rfl, hm⟩ := h.exists_buf
  intro s' hs'
  obtain ⟨d, hd, hfd⟩ := withAccess_eq_next hs'
  obtain ⟨hlen, hread⟩ := memReadRange_eq_ok.1 hd
  have hd' : memReadRange { s with buf := m } 0 n = .ok d := by
    refine memReadRange_eq_ok.2 ⟨hlen, fun j hj => ⟨(hread j hj).1, ?_⟩⟩
    rw [← (hread j hj).2]
    exact hm _ (by omega)
  rw [hd']
  exact hf d s' hfd

/-- The store at `fill` and the step of `fill` past it: what is below the new `fill` is the same again. -/
theorem alike_memWrite {b : Byte} {f f' : State → Result} (h : s.agreeBelowFill t)
    (hf : ∀ m m' : Memory, (∀ a < (s.fill + 1#32).toNat, m'.readByte a = m.readByte a) →
      AlikeBelowFill (f { s with buf := m }) (f' { s with buf := m' })) :
    AlikeBelowFill (withAccess (memWrite s s.fill.toNat b) f) (withAccess (memWrite t t.fill.toNat b) f') := by
  obtain ⟨m, rfl, hm⟩ := h.exists_buf
  intro s' hs'
  obtain ⟨u, hu, hfu⟩ := withAccess_eq_next hs'
  obtain ⟨hlt, rfl⟩ := memWrite_eq_ok.1 hu
  have hw : memWrite { s with buf := m } s.fill.toNat b = .ok { s with buf := m.writeByte s.fill.toNat b } :=
    memWrite_eq_ok.2 ⟨hlt, rfl⟩
  dsimp only
  rw [hw]
  refine hf _ _ (fun a ha => ?_) s' hfu
  rw [fill_succ_toNat hlt] at ha
  rw [Memory.readByte_writeByte, Memory.readByte_writeByte]
  split_ifs with hne
  · rfl
  · exact hm a (by omega)

/-! The commands with a case of their own -/

theorem alike_ckPush (h : s.agreeBelowFill t) (b : Byte) : AlikeBelowFill (execCkPush b s) (execCkPush b t) := by
  refine alike_unlessDead h (alike_onlyInAsm h (alike_ite (by rw [h.1]) (alike_raise _ h) (alike_memWrite h ?_)))
  intro m m' hm
  obtain ⟨-, rfl, -⟩ := h.exists_buf
  exact alike_respondOk _ ⟨rfl, hm⟩

theorem alike_ckBuild (h : s.agreeBelowFill t) : AlikeBelowFill (execCkBuild s) (execCkBuild t) := by
  refine alike_unlessDead h (alike_onlyInAsm h ?_)
  obtain ⟨m, rfl, hm⟩ := h.exists_buf
  exact alike_memReadRange h le_rfl fun d => alike_respondOk _ ⟨rfl, hm⟩

/-- R41 b: the data of a valid slot is what `fill` counts. -/
theorem alike_ckData (hs : s.Inv) (h : s.agreeBelowFill t) (i : Word) : AlikeBelowFill (execCkData i s) (execCkData i t) := by
  refine alike_unlessDead h (alike_onlyIfSlotValid h fun hv => ?_)
  have hfill := hs.slotFill hv
  obtain ⟨m, rfl, hm⟩ := h.exists_buf
  dsimp only
  split_ifs with hi
  · exact alike_raise _ h
  · refine alike_memRead h ?_ fun b => alike_respondOk _ h
    rw [hfill]
    exact BitVec.lt_def.1 (BitVec.not_le.1 hi)

theorem alike_ckEmit (hs : s.Inv) (h : s.agreeBelowFill t) : AlikeBelowFill (execCkEmit s) (execCkEmit t) := by
  refine alike_unlessDead h (alike_onlyIfSlotValid h fun hv => ?_)
  have hfill := hs.slotFill hv
  obtain ⟨m, rfl, hm⟩ := h.exists_buf
  exact alike_memReadRange h (by rw [hfill]) fun d => alike_emitOk _ h

theorem alike_rxSigByte (h : s.agreeBelowFill t) (b : Byte) : AlikeBelowFill (rxSigByte b s) (rxSigByte b t) := by
  obtain ⟨m, rfl, hm⟩ := h.exists_buf
  unfold rxSigByte
  dsimp only
  split_ifs
  · exact alike_raise _ h
  · exact alike_respondOk _ ⟨rfl, hm⟩
  · exact alike_respondOk _ ⟨rfl, hm⟩

theorem alike_rxLenByte (h : s.agreeBelowFill t) (b : Byte) : AlikeBelowFill (rxLenByte b s) (rxLenByte b t) := by
  obtain ⟨m, rfl, hm⟩ := h.exists_buf
  unfold rxLenByte
  dsimp only
  split_ifs
  · exact alike_raise _ ⟨rfl, hm⟩
  · exact alike_respondOk _ ⟨rfl, hm⟩
  · exact alike_respondOk _ ⟨rfl, hm⟩

/-- The fourth type byte clears `fill`, which leaves nothing to agree on. -/
theorem alike_rxTypeByte (h : s.agreeBelowFill t) (b : Byte) : AlikeBelowFill (rxTypeByte b s) (rxTypeByte b t) := by
  obtain ⟨m, rfl, hm⟩ := h.exists_buf
  unfold rxTypeByte
  dsimp only
  refine alike_ite Iff.rfl (alike_respondOk _ ⟨rfl, ?_⟩) (alike_respondOk _ ⟨rfl, hm⟩)
  simp

theorem alike_rxDataByte (h : s.agreeBelowFill t) (b : Byte) : AlikeBelowFill (rxDataByte b s) (rxDataByte b t) := by
  refine alike_memWrite h fun m m' hm => ?_
  obtain ⟨-, rfl, -⟩ := h.exists_buf
  exact alike_respondOk _ ⟨rfl, hm⟩

theorem alike_rxCrcByte (h : s.agreeBelowFill t) (b : Byte) : AlikeBelowFill (rxCrcByte b s) (rxCrcByte b t) := by
  obtain ⟨m, rfl, hm⟩ := h.exists_buf
  unfold rxCrcByte
  dsimp only
  refine alike_ite Iff.rfl (alike_ite Iff.rfl ?_ (alike_ite Iff.rfl ?_ ?_)) ?_
  · exact alike_raise _ ⟨rfl, hm⟩
  · exact alike_raise _ ⟨rfl, hm⟩
  · exact alike_respondOk _ ⟨rfl, hm⟩
  · exact alike_respondOk _ ⟨rfl, hm⟩

theorem alike_rxByte (h : s.agreeBelowFill t) (b : Byte) : AlikeBelowFill (execRxByte b s) (execRxByte b t) := by
  have hclear : State.agreeBelowFill { s with ck_v := false } { t with ck_v := false } := by
    obtain ⟨m, rfl, hm⟩ := h.exists_buf
    exact ⟨rfl, hm⟩
  unfold execRxByte
  generalize ({ s with ck_v := false } : State) = u at hclear ⊢
  generalize ({ t with ck_v := false } : State) = v at hclear ⊢
  rw [h.ph, h.err]
  cases s.ph with
  | dead | idle | asm | fail => exact alike_raise _ h
  | rxSig => exact alike_rxSigByte hclear b
  | rxLen => exact alike_rxLenByte hclear b
  | rxType => exact alike_rxTypeByte hclear b
  | rxData => exact alike_rxDataByte hclear b
  | rxCrc => exact alike_rxCrcByte hclear b

theorem alike_rxEnd (h : s.agreeBelowFill t) : AlikeBelowFill (execRxEnd s) (execRxEnd t) := by
  have hidle : State.agreeBelowFill { s with ph := .idle } { t with ph := .idle } := by
    obtain ⟨m, rfl, hm⟩ := h.exists_buf
    exact ⟨rfl, hm⟩
  unfold execRxEnd
  generalize ({ s with ph := .idle } : State) = u at hidle ⊢
  generalize ({ t with ph := .idle } : State) = v at hidle ⊢
  rw [h.ph, h.err]
  cases s.ph with
  | dead | idle | asm | fail | rxSig | rxType | rxData | rxCrc => exact alike_raise _ h
  | rxLen => exact alike_ite (by rw [h.cnt, h.rx_m]) (alike_respondOk _ hidle) (alike_raise _ h)

/-- R44: no command observes `buf` from `fill` up. -/
theorem alike_exec (hs : s.Inv) (h : s.agreeBelowFill t) (i : Instr) : AlikeBelowFill (exec i s) (exec i t) := by
  cases i with
  | ckPush b => exact alike_ckPush h b
  | ckBuild => exact alike_ckBuild h
  | ckData i => exact alike_ckData hs h i
  | ckEmit => exact alike_ckEmit hs h
  | rxByte b => exact alike_rxByte h b
  | rxEnd => exact alike_rxEnd h
  | nop | stRead | crcRead | tyCheck | sigEmit =>
    obtain ⟨m, rfl, hm⟩ := h.exists_buf
    exact alike_unlessDead h (alike_next (h.answer _ _ _))
  | ckClear | rxBegin =>
    obtain ⟨m, rfl, hm⟩ := h.exists_buf
    exact alike_unlessDead h (alike_respondOk _ ⟨rfl, by simp⟩)
  | ckNew ty =>
    obtain ⟨m, rfl, hm⟩ := h.exists_buf
    exact alike_unlessDead h (alike_ite Iff.rfl (alike_respondOk _ ⟨rfl, by simp⟩) (alike_raise _ h))
  | crcInit | crcByte =>
    obtain ⟨m, rfl, hm⟩ := h.exists_buf
    exact alike_unlessDead h (alike_unlessGeneratorBusy h (alike_respondOk _ ⟨rfl, hm⟩))
  | ckLen | ckType | ckCrc | ckFlags =>
    obtain ⟨m, rfl, hm⟩ := h.exists_buf
    exact alike_unlessDead h (alike_onlyIfSlotValid h fun _ => alike_respondOk _ h)

/-- Settles O57, by cases on what the host has presented: a command is `alike_exec`, a reset leaves `fill` at 0. -/
theorem unspecifiedBytesAreNeverObserved : Obligations.UnspecifiedBytesAreNeverObserved := by
  intro s t s' hs h hstep
  revert s'
  change AlikeBelowFill (step s) (step t)
  cases hb : s.inbox with
  | nil =>
    rw [step_of_nothing hb, step_of_nothing (h.inbox.trans hb)]
    exact alike_next h
  | cons e rest =>
    cases e with
    | reset =>
      rw [step_of_reset hb, step_of_reset (h.inbox.trans hb)]
      exact alike_next (h.setInbox rest).resetEvent
    | command w =>
      cases hd : decode w with
      | ok i =>
        rw [step_of_legal hb hd, step_of_legal (h.inbox.trans hb) hd]
        exact alike_exec (hs.setInbox rest) (h.setInbox rest) i
      | error e =>
        rw [step_of_illegal hb hd, step_of_illegal (h.inbox.trans hb) hd]
        exact alike_illegalCommand (h.setInbox rest)

/-! ### The writes column of R26 -/

theorem Reg.sameIn_self (r : Reg) (s : State) : r.sameIn s s := by
  cases r <;> rfl

/-- Of `buf` only the byte at `fill` can change, the capacity and the port do not. -/
theorem Effect.frame {i : Instr} {out : List Byte} {st : Status} {val : Word} (he : Effect s i c out st val) :
    (∀ a, a ≠ s.fill.toNat → c.buf.readByte a = s.buf.readByte a) ∧ c.bufBytes = s.bufBytes ∧ c.inbox = s.inbox := by
  cases he with
  | push | data => exact ⟨fun a ha => Memory.readByte_writeByte_ne _ _ ha, rfl, rfl⟩
  | _ => exact ⟨fun _ _ => rfl, rfl, rfl⟩

/-- R26: a refusal or a read writes nothing, any other effect only the registers its command's column lists. -/
theorem Effect.sameIn_of_notMem_registersWritten {i : Instr} {out : List Byte} {st : Status} {val : Word}
    (he : Effect s i c out st val) {r : Reg} (hr : r ∉ registersWritten i) : r.sameIn s c := by
  cases he with
  | dead | initBusy | byteBusy | newNotAlpha | pushNotAsm | buildNotAsm | slotInvalid | badIndex | byteNoSession
  | endNoSession | byteFailed | endFailed => exact r.sameIn_self s
  | nop | stRead | crcRead | tyCheck | ckLen | ckType | ckCrc | ckFlags | ckData | ckEmit | sigEmit => exact r.sameIn_self s
  | ckClear | crcInit | crcByte | ckNew | pushFull | push | build | rxBegin | sigBad | sigLast | sigNext | lenNext | lenLast
  | lenBad | typeNext | typeLast | data | crcNext | crcBadType | crcBad | crcGood | endSig | endOk | endShort =>
    cases r <;> simp [registersWritten, Reg.sameIn] at hr ⊢

/-- Settles O59, by cases on what the command did. -/
theorem registersWrittenAsInR26 : Obligations.RegistersWrittenAsInR26 := by
  intro s t i h
  obtain ⟨c, out, st, val, he, rfl⟩ := exec_effect h
  refine ⟨fun r hr => ?_, he.frame⟩
  have hc := he.sameIn_of_notMem_registersWritten hr
  cases r <;> exact hc

end Sys2Proof.Machine
end

section
/-! PROOFS of the memory family (20_memory.md): the pure reads of R60 change nothing but the replies and repeat their answer (O58). -/

namespace Sys2Proof.Machine

variable {s s' : State} {k k' : Result}

/-- Where `k` answers a next state, it is `s` with one reply more, and `k'` adds the same reply to `s'`. -/
def SameReply (s s' : State) (k k' : Result) : Prop :=
  ∀ t, k = .next t → ∃ out st val, t = s.answer out st val ∧ k' = .next (s'.answer out st val)

/-! ### The shared operations of the reads, one lemma each -/

theorem sameReply_answer (out : List Byte) (st : Status) (val : Word) :
    SameReply s s' (.next (s.answer out st val)) (.next (s'.answer out st val)) := by
  rintro t ⟨⟩
  exact ⟨out, st, val, rfl, rfl⟩

theorem sameReply_unlessDead (hp : s'.ph = s.ph) (hk : SameReply s s' k k') :
    SameReply s s' (unlessDead s k) (unlessDead s' k') := by
  by_cases hd : s.ph = .dead
  · rw [unlessDead_dead hd, unlessDead_dead (hp.trans hd)]
    exact sameReply_answer _ _ _
  · rw [unlessDead_live hd, unlessDead_live (hp ▸ hd)]
    exact hk

theorem sameReply_onlyIfSlotValid (hv : s'.ck_v = s.ck_v) (hk : SameReply s s' k k') :
    SameReply s s' (onlyIfSlotValid s k) (onlyIfSlotValid s' k') := by
  unfold onlyIfSlotValid
  rw [hv]
  split_ifs
  · exact hk
  · exact sameReply_answer _ _ _

theorem sameReply_withAccess {α : Type} {x x' : Except Fault α} {f f' : α → Result} (hx : x' = x)
    (hf : ∀ a, SameReply s s' (f a) (f' a)) : SameReply s s' (withAccess x f) (withAccess x' f') := by
  subst hx
  cases x' with
  | ok a => exact hf a
  | error e => exact fun t h => absurd h (by simp)

/-! ### The reads -/

/-- The buffer accesses do not see the replies. -/
theorem memReadRange_withReplies (s : State) (rs : List Reply) (a n : Nat) :
    memReadRange { s with replies := rs } a n = memReadRange s a n := by
  induction n generalizing a with
  | zero => rfl
  | succ n ih =>
    simp only [memReadRange, ih]
    rfl

theorem sameReply_ckData (s : State) (rs : List Reply) (i : Word) :
    SameReply s { s with replies := rs } (execCkData i s) (execCkData i { s with replies := rs }) := by
  refine sameReply_unlessDead rfl (sameReply_onlyIfSlotValid rfl ?_)
  dsimp only
  split_ifs
  · exact sameReply_answer _ _ _
  · exact sameReply_withAccess rfl fun b => sameReply_answer _ _ _

theorem sameReply_ckEmit (s : State) (rs : List Reply) :
    SameReply s { s with replies := rs } (execCkEmit s) (execCkEmit { s with replies := rs }) :=
  sameReply_unlessDead rfl <| sameReply_onlyIfSlotValid rfl <|
    sameReply_withAccess (memReadRange_withReplies s rs 0 _) fun _ => sameReply_answer _ _ _

/-- R60: a read adds one reply, which does not depend on the replies given before. -/
theorem sameReply_exec_of_read {i : Instr}
    (hi : i ∈ [Instr.crcRead, .stRead, .ckLen, .ckType, .ckCrc, .ckFlags, .ckEmit, .sigEmit, .nop] ∨ (∃ ty, i = .tyCheck ty) ∨
      ∃ k, i = .ckData k) (s : State) (rs : List Reply) :
    SameReply s { s with replies := rs } (exec i s) (exec i { s with replies := rs }) := by
  cases i with
  | nop | stRead | crcRead | tyCheck | sigEmit => exact sameReply_unlessDead rfl (sameReply_answer _ _ _)
  | ckLen | ckType | ckCrc | ckFlags => exact sameReply_unlessDead rfl (sameReply_onlyIfSlotValid rfl (sameReply_answer _ _ _))
  | ckData k => exact sameReply_ckData s rs k
  | ckEmit => exact sameReply_ckEmit s rs
  | ckClear | crcInit | crcByte | ckNew | ckPush | ckBuild | rxBegin | rxByte | rxEnd => simp at hi

/-- Settles O58: the second issue runs in a state that differs from the first only in the replies (`sameReply_exec_of_read`). -/
theorem readsHaveNoSideEffects : Obligations.ReadsHaveNoSideEffects := by
  intro s t i hi h
  obtain ⟨out, st, val, rfl, hagain⟩ := sameReply_exec_of_read hi s t.replies t h
  exact ⟨⟨out, st, val⟩, rfl, hagain⟩

end Sys2Proof.Machine
end

section
/-! PROOFS of the encoding family (30_encoding.md): the decoder and the encoder are each other's inverse (O3, O4), the legal words are
the rows of the opcode map (O2), the words of R75 and R79 (O1, O5), and one response for each command word (O11). -/

namespace Sys2Proof

variable {w : CmdWord} {i : Instr}

/-! ### Encoding, then decoding -/

/-- Format W takes every word as its operand. -/
theorem decodeW_eq_ok {a : Word} {mk : Word → Instr} :
    decodeW a mk = .ok i ↔ ∃ x : Word, a = BitVec.ofNat 32 x.toNat ∧ i = mk x := by
  simp [decodeW, eq_comm]

theorem op_encode (i : Instr) : (encode i).op = i.opcode := CmdWord.op_append ..

theorem arg_encode (i : Instr) : (encode i).arg = BitVec.ofNat 32 i.operand := CmdWord.arg_append ..

/-- R78: the opcode of an encoded command selects its own row of the decoder, and its format reads the operand back. -/
theorem decode_encode (i : Instr) : decode (encode i) = .ok i := by
  unfold decode
  rw [op_encode, arg_encode]
  cases i with
  | nop | stRead | ckClear | crcInit | crcRead | ckBuild | rxEnd | ckLen | ckType | ckCrc | ckFlags | ckEmit | sigEmit =>
    exact decodeN_eq_ok.2 ⟨rfl, rfl⟩
  | crcByte b | ckPush b | rxByte b => exact decodeB_eq_ok.2 ⟨b, rfl, rfl⟩
  | tyCheck x | ckNew x | ckData x => exact decodeW_eq_ok.2 ⟨x, rfl, rfl⟩
  | rxBegin m => exact decodeM_eq_ok.2 ⟨m, rfl, rfl⟩

/-- Settles O3: every command is well formed, so the hypothesis is not needed. -/
theorem decodeInvertsEncode : Obligations.DecodeInvertsEncode := fun i _ => decode_encode i

/-! ### Decoding, then encoding -/

/-- A word is the encoding of a command when its two fields are the command's (R70). -/
theorem encode_eq_of_fields (hop : w.op.toNat = i.opcode.toNat) (harg : w.arg = BitVec.ofNat 32 i.operand) :
    encode i = w := by
  rw [encode, ← BitVec.eq_of_toNat_eq hop, ← harg]
  exact w.eq_op_append_arg

/-- R71, R76: a row of the decoder that accepts a word has read both its fields, so no bit of the word is lost. -/
theorem encode_of_decode (h : decode w = .ok i) : encode i = w := by
  unfold decode at h
  split at h
  case h_1 hop | h_2 hop | h_3 hop | h_4 hop | h_6 hop | h_10 hop | h_13 hop | h_14 hop | h_15 hop | h_16 hop | h_18 hop
      | h_19 hop | h_20 hop =>
    obtain ⟨harg, rfl⟩ := decodeN_eq_ok.1 h
    exact encode_eq_of_fields hop harg
  case h_5 hop | h_9 hop | h_12 hop =>
    obtain ⟨b, harg, rfl⟩ := decodeB_eq_ok.1 h
    exact encode_eq_of_fields hop harg
  case h_7 hop | h_8 hop | h_17 hop =>
    obtain ⟨x, harg, rfl⟩ := decodeW_eq_ok.1 h
    exact encode_eq_of_fields hop harg
  case h_11 hop =>
    obtain ⟨m, harg, rfl⟩ := decodeM_eq_ok.1 h
    exact encode_eq_of_fields hop harg
  case h_21 => cases h

/-- Settles O4, by the cases of the decoder (`encode_of_decode`). -/
theorem encodeInvertsDecode : Obligations.EncodeInvertsDecode := fun _ _ => encode_of_decode

/-- A word decodes to a command exactly when it is that command's encoding. -/
theorem decode_eq_ok_iff : decode w = .ok i ↔ encode i = w :=
  ⟨encode_of_decode, fun h => h ▸ decode_encode i⟩

/-! ### The rows of the opcode map -/

theorem and_allOnes_shiftLeft_eq_zero_iff (a : Word) (k : Nat) :
    a &&& (BitVec.allOnes 32 <<< k) = 0#32 ↔ a.toNat < 2 ^ k := by
  have hnat : (a >>> k <<< k).toNat = a.toNat / 2 ^ k * 2 ^ k := by
    rw [BitVec.toNat_shiftLeft, BitVec.toNat_ushiftRight, Nat.shiftLeft_eq, Nat.shiftRight_eq_div_pow]
    exact Nat.mod_eq_of_lt ((Nat.div_mul_le_self ..).trans_lt a.isLt)
  rw [← BitVec.shiftLeft_ushiftRight, ← BitVec.toNat_inj, hnat]
  simp [Nat.div_eq_zero_iff]

/-- The masks of R71, field by field: all of `op`, and the bits of `arg` above the operand. -/
theorem Format.mask_eq_append (f : Format) : f.mask = 0xFF#8 ++ (BitVec.allOnes 32 <<< f.operandBits) := by
  cases f <;> rfl

/-- A row selects the words of its opcode whose argument fits the format's operand field (R71). -/
theorem and_mask_eq_iff (w : CmdWord) (f : Format) (o : Byte) :
    w &&& f.mask = o ++ 0#32 ↔ w.op = o ∧ w.arg.toNat < 2 ^ f.operandBits := by
  have hand : w &&& f.mask = w.op ++ (w.arg &&& (BitVec.allOnes 32 <<< f.operandBits)) := by
    conv_lhs => rw [← w.eq_op_append_arg, f.mask_eq_append, BitVec.and_append]
    rw [show 0xFF#8 = BitVec.allOnes 8 from rfl, BitVec.and_allOnes]
  rw [hand, ← and_allOnes_shiftLeft_eq_zero_iff]
  constructor
  · intro h
    exact ⟨by simpa using congrArg CmdWord.op h, by simpa using congrArg CmdWord.arg h⟩
  · rintro ⟨hop, harg⟩
    rw [hop, harg]

/-- R75: every command has its row. -/
theorem exists_row (i : Instr) : ∃ r ∈ opcodeTable, r.op = i.opcode ∧ r.format = i.format := by
  have hany : (opcodeTable.any fun r => r.op = i.opcode && r.format = i.format) = true := by
    cases i <;> rfl
  simpa using hany

/-- Every operand that fits the field of a row's format is the operand of a command with the row's opcode. -/
def OpcodeRow.HasCommands (r : OpcodeRow) : Prop :=
  ∀ n < 2 ^ r.format.operandBits, ∃ i : Instr, i.opcode = r.op ∧ i.operand = n

/-- A row has its commands when a constructor takes the operand field, whatever it holds. -/
theorem OpcodeRow.HasCommands.of_forall {r : OpcodeRow} (mk : BitVec r.format.operandBits → Instr)
    (hmk : ∀ x, (mk x).opcode = r.op ∧ (mk x).operand = x.toNat) : r.HasCommands := by
  intro n hn
  obtain ⟨hop, harg⟩ := hmk (BitVec.ofNat _ n)
  exact ⟨_, hop, harg.trans (Nat.mod_eq_of_lt hn)⟩

/-- Format N has one word, its operand field holds nothing (R71). -/
theorem OpcodeRow.HasCommands.single (name : String) {i : Instr} (hi : i.operand = 0) : HasCommands ⟨name, i.opcode, .n⟩ :=
  .of_forall (fun _ => i) fun x => ⟨rfl, hi.trans (BitVec.toNat_of_zero_length rfl x).symm⟩

/-- R75, the other way round: every row has its commands. -/
theorem hasCommands_of_mem {r : OpcodeRow} (hr : r ∈ opcodeTable) : r.HasCommands := by
  revert r
  simp only [opcodeTable, opcodeTableLow, opcodeTableHigh, List.cons_append, List.nil_append, List.forall_mem_cons]
  exact
    ⟨.single "NOP" (i := .nop) rfl, .single "ST.READ" (i := .stRead) rfl,
     .single "CK.CLEAR" (i := .ckClear) rfl, .single "CRC.INIT" (i := .crcInit) rfl,
     .of_forall .crcByte fun _ => ⟨rfl, rfl⟩, .single "CRC.READ" (i := .crcRead) rfl,
     .of_forall .tyCheck fun _ => ⟨rfl, rfl⟩, .of_forall .ckNew fun _ => ⟨rfl, rfl⟩,
     .of_forall .ckPush fun _ => ⟨rfl, rfl⟩, .single "CK.BUILD" (i := .ckBuild) rfl,
     .of_forall (fun x => .rxBegin (x.getLsbD 0)) (by decide), .of_forall .rxByte fun _ => ⟨rfl, rfl⟩,
     .single "RX.END" (i := .rxEnd) rfl, .single "CK.LEN" (i := .ckLen) rfl,
     .single "CK.TYPE" (i := .ckType) rfl, .single "CK.CRC" (i := .ckCrc) rfl,
     .of_forall .ckData fun _ => ⟨rfl, rfl⟩, .single "CK.FLAGS" (i := .ckFlags) rfl,
     .single "CK.EMIT" (i := .ckEmit) rfl, .single "SIG.EMIT" (i := .sigEmit) rfl,
     fun _ h => absurd h List.not_mem_nil⟩

/-- Settles O2: a legal word is an encoding (O4), which its command's row selects; a selected word is the encoding of one of the
row's commands. -/
theorem legalWordsAreTheTableRows : Obligations.LegalWordsAreTheTableRows := by
  intro w
  simp only [and_mask_eq_iff]
  constructor
  · rintro ⟨i, h⟩
    obtain rfl := encode_of_decode h
    obtain ⟨r, hr, hop, hformat⟩ := exists_row i
    have hfits : i.operand < 2 ^ i.format.operandBits := of_decide_eq_true (Laws.instr_wellFormed i)
    refine ⟨r, hr, (op_encode i).trans hop.symm, ?_⟩
    rw [arg_encode, hformat]
    exact (Nat.mod_le ..).trans_lt hfits
  · rintro ⟨r, hr, hop, harg⟩
    obtain ⟨i, hi, hn⟩ := hasCommands_of_mem hr _ harg
    exact ⟨i, decode_eq_ok_iff.2 (encode_eq_of_fields (by rw [hi, hop]) (by rw [hn, BitVec.ofNat_toNat, BitVec.setWidth_eq]))⟩

/-! ### The command words of R75 and R79 -/

/-- The word of a format-B command, its reserved bits written out (R71). -/
theorem decode_byteWord {o : Byte} {mk : Byte → Instr} (hmk : ∀ b, encode (mk b) = o ++ BitVec.ofNat 32 b.toNat) (b : Byte) :
    decode (o ++ 0#24 ++ b) = .ok (mk b) := by
  have harg : BitVec.ofNat 32 b.toNat = 0#24 ++ b := by
    rw [BitVec.ofNat_toNat, BitVec.setWidth_eq_append (by decide)]
    rfl
  rw [byteWord_assoc, ← harg, ← hmk, decode_encode]

/-- The word of a format-W command. -/
theorem decode_wordWord {o : Byte} {mk : Word → Instr} (hmk : ∀ x, encode (mk x) = o ++ BitVec.ofNat 32 x.toNat) (x : Word) :
    decode (o ++ x) = .ok (mk x) := by
  have henc := hmk x
  rw [BitVec.ofNat_toNat, BitVec.setWidth_eq] at henc
  rw [← henc, decode_encode]

/-- The word of `RX.BEGIN`, the one format-M command, its reserved bits written out (R71). -/
theorem decode_rxBeginWord (m : Bool) : decode (0x40#8 ++ 0#31 ++ BitVec.ofBool m) = .ok (.rxBegin m) := by
  cases m
  · exact decode_encode (.rxBegin false)
  · exact decode_encode (.rxBegin true)

/-- R75: an opcode outside the map is illegal, whatever the argument. -/
theorem decode_of_unlisted (h : w.op.toNat ∉ [0x00, 0x01, 0x02, 0x10, 0x11, 0x12, 0x20, 0x30, 0x31, 0x32, 0x40, 0x41, 0x42, 0x50,
    0x51, 0x52, 0x53, 0x54, 0x60, 0x61]) : decode w = .error .unknownOpcode := by
  unfold decode
  split
  case h_21 => rfl
  all_goals
    next hop =>
      rw [hop] at h
      exact absurd (by decide) h

/-- Settles O1: each listed word is the encoding of its command (`decode_encode`). -/
theorem commandWordsDecodeAsListed : Obligations.CommandWordsDecodeAsListed := by
  refine
    ⟨⟨decode_encode .nop, decode_encode .stRead, decode_encode .ckClear⟩,
     ⟨decode_encode .crcInit, decode_byteWord fun _ => rfl, decode_encode .crcRead⟩,
     decode_wordWord fun _ => rfl,
     ⟨decode_wordWord fun _ => rfl, decode_byteWord fun _ => rfl, decode_encode .ckBuild⟩,
     ⟨decode_rxBeginWord, decode_byteWord fun _ => rfl, decode_encode .rxEnd⟩,
     ⟨decode_encode .ckLen, decode_encode .ckType, decode_encode .ckCrc, decode_wordWord fun _ => rfl, decode_encode .ckFlags⟩,
     ⟨decode_encode .ckEmit, decode_encode .sigEmit⟩, fun w h => ?_⟩
  exact decode_of_unlisted (w.op_toNat ▸ h)

/-- Settles O5: each word is the encoding of the command it names. -/
theorem exampleWordsDecode : Obligations.ExampleWordsDecode :=
  ⟨decode_encode (.ckNew 0x72755374#32), decode_encode (.rxByte 0x89#8), decode_encode (.rxBegin true),
    decode_encode (.ckData 4#32)⟩

end Sys2Proof

namespace Sys2Proof.Machine

/-! ### One response for each command word -/

variable {s c : State} {i : Instr} {out : List Byte} {st : Status} {val : Word}

/-- What a command writes before it answers leaves the replies given so far alone. -/
theorem Effect.replies (he : Effect s i c out st val) : c.replies = s.replies := by
  cases he <;> rfl

/-- R73, R150: a command that does not answer `OK` answers the value 0 and emits nothing. -/
theorem Effect.empty_of_ne_ok (he : Effect s i c out st val) (hst : st ≠ .ok) : val = 0#32 ∧ out = [] := by
  cases he with
  | dead | initBusy | byteBusy | newNotAlpha | pushNotAsm | buildNotAsm | slotInvalid | badIndex | byteNoSession
  | endNoSession | byteFailed | endFailed | pushFull | sigBad | lenBad | crcBadType | crcBad | endSig | endShort =>
    exact ⟨rfl, rfl⟩
  | _ => exact absurd rfl hst

/-- Settles O11, by cases on what the step took: a word performed (`Effect`) or an illegal one answered. -/
theorem everyCommandAnswersOnce : Obligations.EveryCommandAnswersOnce := by
  refine ⟨fun s t w rest hb h => ?_, fun r => ⟨BitVec.extractLsb'_append_eq_left, BitVec.extractLsb'_append_eq_right⟩⟩
  rcases step_cases h with ⟨hn, -⟩ | ⟨rest', hr, -⟩ | ⟨w', rest', i, c, out, st, val, hc, -, he, rfl⟩ | ⟨w', rest', e, hc, -, rfl⟩
  · rw [hn] at hb
    cases hb
  · rw [hr] at hb
    cases hb
  · obtain ⟨-, rfl⟩ := List.cons.inj (hc.symm.trans hb)
    obtain ⟨-, -, hinbox⟩ := he.frame
    refine ⟨hinbox, ⟨out, st, val⟩, ?_, he.empty_of_ne_ok⟩
    rw [State.answer_replies, he.replies]
  · obtain ⟨-, rfl⟩ := List.cons.inj (hc.symm.trans hb)
    exact ⟨rfl, _, State.answer_replies .., fun _ => ⟨rfl, rfl⟩⟩

end Sys2Proof.Machine
end

section
/-! PROOFS of the CRC family (40_crc.md): the loop of R90 and its table form (O13), the single flipped bit of R96 (O15), and the direct
commands (O16), which compute the CRC-32 of a message (O17). -/

namespace Sys2Proof.Machine

variable {s t : State} {k : Result}

/-! ### The loop of R90 -/

theorem crcShift_eq_xor (x : Word) : crcShift x = (x >>> 1) ^^^ (if x.getLsbD 0 then Config.crcPoly else 0#32) := by
  unfold crcShift
  split <;> simp

theorem crcShifts_eq_iterate (n : Nat) (x : Word) : crcShifts n x = crcShift^[n] x := by
  induction n generalizing x with
  | zero => rfl
  | succ n ih => exact ih (crcShift x)

theorem crcShifts_succ_last (n : Nat) (x : Word) : crcShifts (n + 1) x = crcShift (crcShifts n x) := by
  simp only [crcShifts_eq_iterate, Function.iterate_succ_apply']

/-- The loop is linear over XOR: a shift moves bits, and the constant comes in by bit 0 alone. -/
theorem crcShift_xor (x y : Word) : crcShift (x ^^^ y) = crcShift x ^^^ crcShift y := by
  have hpoly : (if (x ^^^ y).getLsbD 0 then Config.crcPoly else 0#32) =
      (if x.getLsbD 0 then Config.crcPoly else 0#32) ^^^ (if y.getLsbD 0 then Config.crcPoly else 0#32) := by
    rw [BitVec.getLsbD_xor]
    cases x.getLsbD 0 <;> cases y.getLsbD 0 <;> simp
  rw [crcShift_eq_xor, crcShift_eq_xor, crcShift_eq_xor, hpoly, BitVec.ushiftRight_xor_distrib]
  ac_rfl

theorem crcShifts_xor (n : Nat) (x y : Word) : crcShifts n (x ^^^ y) = crcShifts n x ^^^ crcShifts n y := by
  induction n generalizing x y with
  | zero => rfl
  | succ n ih => simp only [crcShifts, crcShift_xor, ih]

/-- Where the low bits are all 0 the constant never comes in. -/
theorem crcShifts_eq_ushiftRight {n : Nat} {x : Word} (h : ∀ i < n, x.getLsbD i = false) : crcShifts n x = x >>> n := by
  induction n generalizing x with
  | zero => simp [crcShifts]
  | succ n ih =>
    have hshift : crcShift x = x >>> 1 := by rw [crcShift, h 0 (by omega), if_neg Bool.false_ne_true]
    have hlow : ∀ i < n, (x >>> 1).getLsbD i = false := fun i hi => by
      rw [BitVec.getLsbD_ushiftRight]
      exact h (1 + i) (by omega)
    rw [crcShifts, hshift, ih hlow, ← BitVec.shiftRight_add, Nat.add_comm]

/-- A word is its low byte and the rest. -/
theorem eq_lowByte_xor_rest (x : Word) : x = (x.extractLsb' 0 8).setWidth 32 ^^^ (x >>> 8) <<< 8 := by
  ext i hi
  by_cases h : i < 8
  · simp [h, hi]
  · simp [h, hi, Nat.add_sub_cancel' (Nat.not_lt.1 h)]

/-- Eight iterations move the rest of a word down by a byte and add what its low byte brings in. -/
theorem crcShifts_eight (x : Word) : crcShifts 8 x = crcShifts 8 ((x.extractLsb' 0 8).setWidth 32) ^^^ (x >>> 8) := by
  have hrest : crcShifts 8 ((x >>> 8) <<< 8) = x >>> 8 := by
    rw [crcShifts_eq_ushiftRight (by simp +contextual)]
    ext i hi
    simpa using BitVec.lt_of_getLsbD
  calc crcShifts 8 x
      = crcShifts 8 ((x.extractLsb' 0 8).setWidth 32 ^^^ (x >>> 8) <<< 8) := congrArg _ (eq_lowByte_xor_rest x)
    _ = crcShifts 8 ((x.extractLsb' 0 8).setWidth 32) ^^^ (x >>> 8) := by rw [crcShifts_xor, hrest]

/-- R90: the low byte selects the table entry, the rest of the remainder moves down by a byte. -/
theorem crcStep_eq_table (c : Word) (b : Byte) :
    crcStep c b = crcStep 0#32 ((c ^^^ b.setWidth 32).extractLsb' 0 8) ^^^ (c >>> 8) := by
  have hbyte : (c ^^^ b.setWidth 32) >>> 8 = c >>> 8 := by
    ext i hi
    simp
  rw [crcStep, crcShifts_eight, hbyte, crcStep, BitVec.zero_xor]

/-- Settles O13: the sequence is the loop's own, the table form `crcStep_eq_table`, and the listed values are evaluated. -/
theorem crcStepIsTheLoopOfR90 : Obligations.CrcStepIsTheLoopOfR90 := by
  refine ⟨fun c b => ?_, crcStep_eq_table, by decide +kernel, by decide +kernel⟩
  exact ⟨fun k => crcShifts k (c ^^^ b.setWidth 32), rfl, fun k _ => crcShifts_succ_last k _, rfl⟩

/-! ### A flipped bit is never lost (R96) -/

/-- Bit 31 after an iteration is bit 0 before it: the shift brings a 0 in there, and the constant has bit 31 set. -/
theorem getLsbD_crcShift_31 (x : Word) : (crcShift x).getLsbD 31 = x.getLsbD 0 := by
  rw [crcShift_eq_xor, BitVec.getLsbD_xor, BitVec.getLsbD_ushiftRight]
  cases x.getLsbD 0 <;> simp [Config.crcPoly]

/-- An iteration can be undone: bit 31 says whether the constant came in, and the shift keeps every bit but bit 0. -/
theorem crcShift_injective : Function.Injective crcShift := by
  intro x y h
  have h0 : x.getLsbD 0 = y.getLsbD 0 := by rw [← getLsbD_crcShift_31, h, getLsbD_crcShift_31]
  have hshift : x >>> 1 = y >>> 1 := by
    rw [crcShift_eq_xor, crcShift_eq_xor, h0] at h
    exact (BitVec.xor_left_inj _).1 h
  ext i hi
  cases i with
  | zero => exact h0
  | succ i => simpa [Nat.add_comm, hi] using congrArg (·.getLsbD i) hshift

theorem crcShifts_injective (n : Nat) : Function.Injective (crcShifts n) := by
  rw [funext (crcShifts_eq_iterate n)]
  exact crcShift_injective.iterate n

theorem crcStep_injective_left (b : Byte) : Function.Injective fun c => crcStep c b := fun _ _ h =>
  (BitVec.xor_left_inj _).1 (crcShifts_injective 8 h)

theorem crcStep_injective_right (c : Word) : Function.Injective (crcStep c) := fun b b' h => by
  have hw : b.setWidth 32 = b'.setWidth 32 := (BitVec.xor_right_inj _).1 (crcShifts_injective 8 h)
  simpa using congrArg (BitVec.setWidth 8) hw

/-- The bytes that follow keep two different remainders apart. -/
theorem crcFold_injective (m : List Byte) : Function.Injective fun c => crcFold c m := by
  induction m with
  | nil => exact Function.injective_id
  | cons b m ih => exact ih.comp (crcStep_injective_left b)

/-- Messages of one length that differ in one byte have different CRCs. -/
theorem byte_eq_of_crc32_eq {p q : List Byte} {b b' : Byte} (h : crc32 (p ++ b :: q) = crc32 (p ++ b' :: q)) : b = b' := by
  have hfold := (BitVec.xor_left_inj _).1 h
  simp only [crcFold, List.foldl_append, List.foldl_cons] at hfold
  exact crcStep_injective_right _ (crcFold_injective q hfold)

/-- Settles O15: a flipped bit changes the byte. -/
theorem crcDetectsOneFlippedBit : Obligations.CrcDetectsOneFlippedBit := by
  intro p q b k hk h
  have hflip := congrArg (·.getLsbD k) (byte_eq_of_crc32_eq h)
  simp [hk] at hflip

/-! ### The direct commands (R92 to R95) -/

theorem unlessGeneratorBusy_busy (h : s.ph.usesGenerator = true) :
    unlessGeneratorBusy s k = .next (s.answer [] .badPhase 0#32) := if_pos h

theorem unlessGeneratorBusy_free (h : s.ph.usesGenerator = false) : unlessGeneratorBusy s k = k := by
  simp [unlessGeneratorBusy, h]

theorem exec_crcInit_busy (hd : s.ph ≠ .dead) (hg : s.ph.usesGenerator = true) :
    exec .crcInit s = .next (s.answer [] .badPhase 0#32) :=
  (unlessDead_live hd).trans (unlessGeneratorBusy_busy hg)

theorem exec_crcInit_free (hd : s.ph ≠ .dead) (hg : s.ph.usesGenerator = false) :
    exec .crcInit s = .next (State.answer { s with crc_r := Config.crcInit } [] .ok 0#32) :=
  (unlessDead_live hd).trans (unlessGeneratorBusy_free hg)

theorem exec_crcByte_busy (hd : s.ph ≠ .dead) (hg : s.ph.usesGenerator = true) (b : Byte) :
    exec (.crcByte b) s = .next (s.answer [] .badPhase 0#32) :=
  (unlessDead_live hd).trans (unlessGeneratorBusy_busy hg)

theorem exec_crcByte_free (hd : s.ph ≠ .dead) (hg : s.ph.usesGenerator = false) (b : Byte) :
    exec (.crcByte b) s = .next (State.answer { s with crc_r := crcStep s.crc_r b } [] .ok 0#32) :=
  (unlessDead_live hd).trans (unlessGeneratorBusy_free hg)

theorem exec_crcRead_live (hd : s.ph ≠ .dead) :
    exec .crcRead s = .next (s.answer [] .ok (s.crc_r ^^^ Config.crcXorOut)) := unlessDead_live hd

/-- R71: a reserved bit of `CRC.BYTE` makes the word illegal. -/
theorem decode_crcByte_reserved {r : BitVec 24} (hr : r ≠ 0#24) (b : Byte) :
    decode (0x11#8 ++ r ++ b) = .error .reservedBitSet := by
  rw [byteWord_assoc, decode, CmdWord.op_append, CmdWord.arg_append]
  exact (decodeB_append r b .crcByte).trans (if_neg hr)

/-- Settles O16, by whether a parse is using the generator. -/
theorem directCrcCommands : Obligations.DirectCrcCommands := by
  refine ⟨⟨decode_encode .crcInit, decode_byteWord fun _ => rfl, fun a b ha => decode_crcByte_reserved ha b,
    decode_encode .crcRead⟩, fun s hd => ⟨fun hg => ?_, fun hg => ?_, exec_crcRead_live hd⟩⟩
  · have hbusy := (Phase.usesGenerator_iff _).2 hg
    exact ⟨exec_crcInit_busy hd hbusy, exec_crcByte_busy hd hbusy⟩
  · have hfree := Bool.eq_false_iff.2 (mt (Phase.usesGenerator_iff _).1 hg)
    exact ⟨exec_crcInit_free hd hfree, exec_crcByte_free hd hfree⟩

/-! ### The CRC-32 of a message by the direct commands -/

theorem execAll_cons_of_next {i : Instr} {is : List Instr} (h : exec i s = .next t) : execAll (i :: is) s = execAll is t := by
  simp only [execAll, h]

theorem execAll_append_of_next {is js : List Instr} (h : execAll is s = .next t) :
    execAll (is ++ js) s = execAll js t := by
  induction is generalizing s with
  | nil => rw [List.nil_append, Host.Outcome.next.inj h]
  | cons i is ih =>
    cases hi : exec i s with
    | next u =>
      rw [execAll_cons_of_next hi] at h
      rw [List.cons_append, execAll_cons_of_next hi, ih h]
    | fault f => simp [execAll, hi] at h
    | refused r => simp [execAll, hi] at h

/-- One `CRC.BYTE` per byte folds the message into the remainder, and answers `OK` to each. -/
theorem execAll_crcByte (hd : s.ph ≠ .dead) (hg : s.ph.usesGenerator = false) (m : List Byte) :
    execAll (m.map Instr.crcByte) s =
      .next { s with
        crc_r := crcFold s.crc_r m
        replies := s.replies ++ List.replicate m.length ⟨[], .ok, 0#32⟩ } := by
  induction m generalizing s with
  | nil => simp [execAll, crcFold]
  | cons b m ih =>
    rw [List.map_cons, execAll_cons_of_next (exec_crcByte_free hd hg b), ih]
    · simp [State.answer, crcFold, List.replicate_succ]
    · exact hd
    · exact hg

/-- Settles O17: `CRC.INIT` and the bytes leave the remainder of the message (`execAll_crcByte`), which `CRC.READ` complements. -/
theorem directCrcIsCrc32 : Obligations.DirectCrcIsCrc32 := by
  intro s m hd htype hdata hcrc
  have hg : s.ph.usesGenerator = false := Bool.eq_false_iff.2 (by simp [Phase.usesGenerator_iff, htype, hdata, hcrc])
  have hbytes := (execAll_cons_of_next (exec_crcInit_free hd hg)).trans
    (execAll_crcByte (by exact hd) (by exact hg) m)
  rw [execAll_append_of_next hbytes, execAll_cons_of_next (exec_crcRead_live ?_)]
  · simp [execAll, State.answer, crc32, List.replicate_succ, Config.crcXorOut]
  · exact hd

end Sys2Proof.Machine
end

section
/-! PROOFS of the chunk-type family (41_chunk_type.md): the flags word of R101 bit by bit, with the gates of R102 (O18), and the command
that answers it (O19). -/

namespace Sys2Proof.Machine

/-! ### The letter classes and the gates, by the ranges of R100 -/

theorem upper_iff (b : Byte) : upper b = true ↔ 0x41 ≤ b.toNat ∧ b.toNat ≤ 0x5A := by
  simp [upper, BitVec.le_def]

theorem lower_iff (b : Byte) : lower b = true ↔ 0x61 ≤ b.toNat ∧ b.toNat ≤ 0x7A := by
  simp [lower, BitVec.le_def]

theorem alpha_iff (b : Byte) : alpha b = true ↔ upper b = true ∨ lower b = true := Bool.or_eq_true_iff

theorem tyAlpha_iff (t : Word) : tyAlpha t = true ↔ alpha (typeByte0 t) = true ∧ alpha (typeByte1 t) = true ∧
    alpha (typeByte2 t) = true ∧ alpha (typeByte3 t) = true := by
  simp only [tyAlpha, Bool.and_eq_true, and_assoc]

theorem tyValid_iff (t : Word) : tyValid t = true ↔ tyAlpha t = true ∧ upper (typeByte2 t) = true := Bool.and_eq_true_iff

/-! ### The flags word -/

/-- R101: the flags, bit 0 first; every bit above them is 0. -/
theorem tyFlags_getLsbD (t : Word) (k : Nat) : (tyFlags t).getLsbD k =
    [upper (typeByte0 t), upper (typeByte1 t), upper (typeByte2 t), lower (typeByte3 t), tyValid t, tyAlpha t].getD k false := by
  have hcast : tyFlags t =
    (0#26 ++ BitVec.ofBool (tyAlpha t) ++ BitVec.ofBool (tyValid t) ++ BitVec.ofBool (lower (typeByte3 t)) ++
      BitVec.ofBool (upper (typeByte2 t)) ++ BitVec.ofBool (upper (typeByte1 t)) ++
      BitVec.ofBool (upper (typeByte0 t)) : BitVec (26 + 1 + 1 + 1 + 1 + 1 + 1)).cast rfl := rfl
  rw [hcast]
  simp only [BitVec.getLsbD_cast, BitVec.getLsbD_append, BitVec.getLsbD_zero, Nat.sub_sub]
  match k with
  | 0 | 1 | 2 | 3 | 4 | 5 => simp
  | k + 6 => simp

/-- Settles O18: each bit is a letter class or a gate (`tyFlags_getLsbD`), and each of these its ranges. -/
theorem typeFlagsBitByBit : Obligations.TypeFlagsBitByBit := by
  intro t up lo alphabetic
  have hbyte (k : Nat) : (t.extractLsb' k 8).toNat = (t >>> k).toNat % 256 := by
    rw [BitVec.extractLsb'_toNat, BitVec.toNat_ushiftRight]
  have hup (k : Nat) : upper (t.extractLsb' k 8) = true ↔ up k := by rw [upper_iff, hbyte]
  have hlo (k : Nat) : lower (t.extractLsb' k 8) = true ↔ lo k := by rw [lower_iff, hbyte]
  have halphabetic : tyAlpha t = true ↔ alphabetic := by
    simp only [tyAlpha_iff, alpha_iff, typeByte0, typeByte1, typeByte2, typeByte3, hup, hlo, alphabetic]
  have hvalid : tyValid t = true ↔ alphabetic ∧ up 8 := (tyValid_iff t).trans (and_congr halphabetic (hup 8))
  have hhigh : (tyFlags t).extractLsb' 6 26 = 0#26 := extractLsb'_eq_of_getLsbD fun k _ => by
    rw [tyFlags_getLsbD, Nat.add_comm, BitVec.getLsbD_zero]
    rfl
  simp only [tyFlags_getLsbD]
  exact ⟨hup 24, hup 16, hup 8, hlo 0, hvalid, halphabetic, hhigh, halphabetic, hvalid⟩

/-- Settles O19: the word is the encoding of its command (`decode_wordWord`), which outside `DEAD` only answers. -/
theorem typeCheckAnswers : Obligations.TypeCheckAnswers :=
  ⟨decode_wordWord fun _ => rfl, fun _ _ hd => unlessDead_live hd⟩

end Sys2Proof.Machine
end

section
/-! PROOFS of the construction family (42_construct.md): the three commands `CK.NEW`, `CK.PUSH`, `CK.BUILD` (O20 to O22), the protocol
they make up (O23), and that it leaves a valid slot alone (O60). -/

namespace Sys2Proof.Machine

variable {s c : State} {k : Result} {t : Word} {d e : List Byte}

/-! ### `CK.NEW` (R111) -/

theorem exec_ckNew_refused (hd : s.ph ≠ .dead) (ha : tyAlpha t = false) :
    exec (.ckNew t) s = .next (s.answer [] .invalidChunkType 0#32) :=
  (unlessDead_live hd).trans (if_neg (by simp [ha]))

theorem exec_ckNew_alpha (hd : s.ph ≠ .dead) (ha : tyAlpha t = true) :
    exec (.ckNew t) s =
      .next (State.answer
        { s with ck_type := t, fill := 0#32, ck_v := false, ty_bad := false, err := .ok, cnt := 0#3, ph := .asm } [] .ok 0#32) :=
  (unlessDead_live hd).trans (if_pos ha)

/-- Settles O20, by whether the type passes the alphabetic gate. -/
theorem newStartsAConstruction : Obligations.NewStartsAConstruction :=
  ⟨decode_wordWord fun _ => rfl, fun _ _ hd => ⟨exec_ckNew_refused hd, exec_ckNew_alpha hd⟩⟩

/-! ### `CK.PUSH` (R112) -/

theorem onlyInAsm_asm (hp : s.ph = .asm) : onlyInAsm s k = k := if_pos hp

theorem onlyInAsm_other (hp : s.ph ≠ .asm) : onlyInAsm s k = .next (s.answer [] .badPhase 0#32) := if_neg hp

/-- Assembling is a live phase. -/
theorem ne_dead_of_asm (hp : s.ph = .asm) : s.ph ≠ .dead := by simp [hp]

theorem exec_ckPush_other (hd : s.ph ≠ .dead) (hp : s.ph ≠ .asm) (b : Byte) :
    exec (.ckPush b) s = .next (s.answer [] .badPhase 0#32) :=
  (unlessDead_live hd).trans (onlyInAsm_other hp)

theorem exec_ckPush_full (hp : s.ph = .asm) (hf : s.fill = s.bufBytes) (b : Byte) :
    exec (.ckPush b) s =
      .next (State.answer { s with ph := .dead, err := .fatalLength, ck_v := false } [] .fatalLength 0#32) :=
  (unlessDead_live (ne_dead_of_asm hp)).trans <| (onlyInAsm_asm hp).trans (if_pos hf)

theorem exec_ckPush_room (hp : s.ph = .asm) (hf : s.fill < s.bufBytes) (b : Byte) :
    exec (.ckPush b) s =
      .next (State.answer { s with buf := s.buf.writeByte s.fill.toNat b, fill := s.fill + 1#32 } [] .ok 0#32) := by
  have hstore : memWrite s s.fill.toNat b = .ok { s with buf := s.buf.writeByte s.fill.toNat b } :=
    memWrite_eq_ok.2 ⟨BitVec.lt_def.1 hf, rfl⟩
  refine (unlessDead_live (ne_dead_of_asm hp)).trans <| (onlyInAsm_asm hp).trans ?_
  rw [if_neg (BitVec.ne_of_lt hf), hstore, withAccess_ok, respondOk_eq]

/-- R71: a reserved bit of `CK.PUSH` makes the word illegal. -/
theorem decode_ckPush_reserved {r : BitVec 24} (hr : r ≠ 0#24) (b : Byte) :
    decode (0x31#8 ++ r ++ b) = .error .reservedBitSet := by
  rw [byteWord_assoc, decode, CmdWord.op_append, CmdWord.arg_append]
  exact (decodeB_append r b .ckPush).trans (if_neg hr)

/-- Settles O21, by the phase and by whether the buffer is full. -/
theorem pushStoresAtFill : Obligations.PushStoresAtFill := by
  refine ⟨decode_byteWord fun _ => rfl, fun r b hr => decode_ckPush_reserved hr b, fun s b hd hle =>
    ⟨fun hp => exec_ckPush_other hd hp b, fun hp hf => exec_ckPush_full hp hf b, fun hp hf => ?_⟩⟩
  have hroom : s.fill < s.bufBytes := BitVec.lt_def.2 (lt_of_le_of_ne (BitVec.le_def.1 hle) (mt BitVec.eq_of_toNat_eq hf))
  exact ⟨_, exec_ckPush_room hp hroom b, rfl, fill_succ_toNat (BitVec.lt_def.1 hroom), Memory.readByte_writeByte_same ..,
    fun _ ha => Memory.readByte_writeByte_ne _ _ ha⟩

/-! ### `CK.BUILD` (R113) -/

theorem exec_ckBuild_other (hd : s.ph ≠ .dead) (hp : s.ph ≠ .asm) :
    exec .ckBuild s = .next (s.answer [] .badPhase 0#32) :=
  (unlessDead_live hd).trans (onlyInAsm_other hp)

theorem exec_ckBuild_asm (hp : s.ph = .asm) (hle : s.fill ≤ s.bufBytes) (hlen : d.length = s.fill.toNat) (hh : s.holds d) :
    exec .ckBuild s =
      .next (State.answer
        { s with ck_len := s.fill, crc_r := crc32 (typeBytes s.ck_type ++ d) ^^^ Config.crcXorOut,
                 ck_crc := crc32 (typeBytes s.ck_type ++ d), ck_v := true, ph := .idle }
        [] .ok (crc32 (typeBytes s.ck_type ++ d))) := by
  have hread := memReadRange_of_holds hh (hlen ▸ BitVec.le_def.1 hle)
  refine (unlessDead_live (ne_dead_of_asm hp)).trans <| (onlyInAsm_asm hp).trans ?_
  rw [← hlen, hread, withAccess_ok]
  simp only [crcFold_append_eq, respondOk_eq, BitVec.xor_assoc, BitVec.xor_self, BitVec.xor_zero]

/-- Settles O22, by the phase; the data that `buf` holds is what the range read gives. -/
theorem buildDerivesLengthAndCrc : Obligations.BuildDerivesLengthAndCrc :=
  ⟨decode_encode .ckBuild, fun _ hd => ⟨exec_ckBuild_other hd, fun hp hle _ hlen hh => exec_ckBuild_asm hp hle hlen hh⟩⟩

/-! ### The protocol (R110) -/

/-- A byte stored behind the data joins it. -/
theorem State.holds_concat_of_store {b : Byte} (hb : c.buf = s.buf.writeByte d.length b) (hh : s.holds d) :
    c.holds (d ++ [b]) := by
  intro a ha
  rw [hb, Memory.readByte_writeByte]
  split_ifs with h
  · simp [h]
  · have hlt : a < d.length := by rw [List.length_append, List.length_singleton] at ha; omega
    rw [hh a hlt, List.getElem?_append_left hlt]

/-- One `CK.PUSH` per byte of `d`, with the bytes `e` pushed before: `buf` comes to hold `e` and then `d`, and each answers `OK`. -/
theorem execAll_ckPush (hp : s.ph = .asm) (hf : s.fill = BitVec.ofNat 32 e.length) (hh : s.holds e)
    (hroom : e.length + d.length ≤ s.bufBytes.toNat) :
    ∃ m : Memory, State.holds { s with buf := m } (e ++ d) ∧ execAll (d.map Instr.ckPush) s =
      .next { s with
        buf := m
        fill := BitVec.ofNat 32 (e ++ d).length
        replies := s.replies ++ List.replicate d.length ⟨[], .ok, 0#32⟩ } := by
  induction d generalizing s e with
  | nil => exact ⟨s.buf, by simpa using hh, by simp [execAll, ← hf]⟩
  | cons b d ih =>
    rw [List.length_cons] at hroom
    have hfill : s.fill.toNat = e.length := by rw [hf, BitVec.toNat_ofNat]; omega
    have hpush := exec_ckPush_room hp (BitVec.lt_def.2 (by omega)) b
    obtain ⟨m, hm, hrest⟩ := ih (e := e ++ [b])
      (s := State.answer { s with buf := s.buf.writeByte s.fill.toNat b, fill := s.fill + 1#32 } [] .ok 0#32)
      hp (by simp [hf, BitVec.ofNat_add]) (State.holds_concat_of_store (by rw [← hfill]; rfl) hh)
      (by simpa [Nat.add_assoc, Nat.add_comm 1] using hroom)
    rw [List.append_assoc, List.singleton_append] at hm hrest
    refine ⟨m, hm, ?_⟩
    rw [List.map_cons, execAll_cons_of_next hpush, hrest]
    simp [State.answer, List.replicate_succ]

/-- Settles O23: `CK.NEW` leaves an empty construction, the pushes fill it (`execAll_ckPush`), `CK.BUILD` closes it. -/
theorem constructionProtocol : Obligations.ConstructionProtocol := by
  intro s t d hd ha hroom
  have hlen : (BitVec.ofNat 32 d.length).toNat = d.length := by rw [BitVec.toNat_ofNat]; omega
  obtain ⟨m, hm, hpush⟩ := execAll_ckPush (e := []) (d := d)
    (s := State.answer
      { s with ck_type := t, fill := 0#32, ck_v := false, ty_bad := false, err := .ok, cnt := 0#3, ph := .asm } [] .ok 0#32)
    rfl rfl (State.holds_nil _) (by simpa using hroom)
  have hpushed := (execAll_cons_of_next (exec_ckNew_alpha hd ha)).trans hpush
  refine ⟨_, (execAll_append_of_next hpushed).trans <| execAll_cons_of_next <|
    exec_ckBuild_asm rfl (BitVec.le_def.2 (hlen.trans_le hroom)) hlen.symm hm, rfl, rfl, rfl, hlen, hm, rfl, rfl, ?_⟩
  simp [List.replicate_succ]

/-! ### A valid slot (R114) -/

@[simp] theorem State.answer_slot (s : State) (out : List Byte) (st : Status) (val : Word) :
    (s.answer out st val).slot = s.slot := rfl

/-- R41 a: there is no valid slot while the machine assembles, reads a stored CRC, or is dead. -/
theorem State.Inv.phase_of_slot (hs : s.Inv) (hv : s.ck_v = true) : s.ph ≠ .asm ∧ s.ph ≠ .rxCrc ∧ s.ph ≠ .dead := by
  rcases hs.slotPlace hv with h | ⟨h, -⟩ <;> simp [h]

/-- What a command does to a valid slot: it stays as it is, or one of the four commands that begin another chunk makes it invalid. -/
theorem Effect.slot_of_valid {i : Instr} {out : List Byte} {st : Status} {val : Word} (he : Effect s i c out st val)
    (hs : s.Inv) (hv : s.ck_v = true) :
    c.slot = s.slot ∨ c.ck_v = false ∧
      ((∃ ty, i = .ckNew ty) ∨ i = .ckClear ∨ (∃ m, i = .rxBegin m) ∨ ∃ b, i = .rxByte b) := by
  obtain ⟨hasm, hcrc, -⟩ := hs.phase_of_slot hv
  cases he with
  | dead | initBusy | byteBusy | newNotAlpha | pushNotAsm | buildNotAsm | slotInvalid | badIndex | byteNoSession
  | endNoSession | byteFailed | endFailed => exact .inl rfl
  | nop | stRead | crcRead | tyCheck | ckLen | ckType | ckCrc | ckFlags | ckData | ckEmit | sigEmit => exact .inl rfl
  | crcInit | crcByte | endSig | endOk | endShort => exact .inl rfl
  | pushFull _ hp | push _ hp | build _ hp => exact absurd hp hasm
  | crcGood _ hp => exact absurd hp hcrc
  | ckClear | ckNew | rxBegin => exact .inr ⟨rfl, by simp⟩
  | sigBad | sigLast | sigNext | lenNext | lenLast | lenBad | typeNext | typeLast | data | crcNext | crcBadType | crcBad =>
    exact .inr ⟨rfl, by simp⟩

/-- Settles O60: `Effect.slot_of_valid`, and outside `ASM` the two commands of a construction are refused. -/
theorem validSlotIsImmutable : Obligations.ValidSlotIsImmutable := by
  intro s t i hs hv h
  obtain ⟨hasm, -, hd⟩ := hs.phase_of_slot hv
  refine ⟨fun ht => ?stays, ?refused, fun hne => ?replaced⟩
  case refused =>
    rintro (rfl | ⟨b, rfl⟩)
    · exact Host.Outcome.next.inj (h.symm.trans (exec_ckBuild_other hd hasm))
    · exact Host.Outcome.next.inj (h.symm.trans (exec_ckPush_other hd hasm b))
  all_goals
    obtain ⟨c, out, st, val, he, rfl⟩ := exec_effect h
    rcases he.slot_of_valid hs hv with hslot | ⟨hc, hi⟩
  case stays.inl => exact hslot
  case stays.inr => simp [hc] at ht
  case replaced.inl => exact absurd hslot hne
  case replaced.inr => exact hi

end Sys2Proof.Machine
end

section
/-! PROOFS of the deframer family (43_deframer.md), command by command: `RX.BEGIN` (O24), `RX.BYTE` by session and by phase (O25 to
O30), `RX.END` (O31), and the phase table (O32). -/

namespace Sys2Proof.Machine

variable {s t c : State} {b : Byte} {i : Instr} {out : List Byte} {st : Status} {val : Word}

/-! ### `RX.BEGIN` (R120) -/

theorem exec_rxBegin_live (hd : s.ph ≠ .dead) (m : Bool) :
    exec (.rxBegin m) s =
      .next (State.answer
        { s with rx_m := m, ck_v := false, ty_bad := false, err := .ok, cnt := 0#3, fill := 0#32,
                 ph := if m then .rxSig else .rxLen } [] .ok 0#32) := unlessDead_live hd

/-- R71: a reserved bit of `RX.BEGIN` makes the word illegal. -/
theorem decode_rxBegin_reserved {r : BitVec 31} (hr : r ≠ 0#31) (m : Bool) :
    decode (0x40#8 ++ r ++ BitVec.ofBool m) = .error .reservedBitSet := by
  have hword : (0x40#8 ++ r ++ BitVec.ofBool m : CmdWord) = 0x40#8 ++ (r ++ BitVec.ofBool m : Word) := by
    rw [BitVec.append_assoc]; simp
  have hfield : (r ++ BitVec.ofBool m : Word).extractLsb' 1 31 = r := BitVec.extractLsb'_append_eq_left
  rw [hword, decode, CmdWord.op_append, CmdWord.arg_append]
  exact if_neg (by rwa [hfield])

/-- Settles O24: outside `DEAD` the command writes its seven registers and answers. -/
theorem beginOpensASession : Obligations.BeginOpensASession :=
  ⟨⟨decode_rxBeginWord false, decode_rxBeginWord true, fun _ m hr => decode_rxBegin_reserved hr m⟩,
    fun _ m hd => exec_rxBegin_live hd m⟩

/-! ### `RX.BYTE`, by the phase (R121) -/

theorem exec_rxByte_noSession (hp : s.ph = .idle ∨ s.ph = .asm) (b : Byte) :
    exec (.rxByte b) s = .next (s.answer [] .badPhase 0#32) := by
  rcases hp with hp | hp <;> simp only [exec, execRxByte, hp, raise_refuse]

theorem exec_rxByte_failed (hp : s.ph = .fail) (b : Byte) : exec (.rxByte b) s = .next (s.answer [] s.err 0#32) := by
  simp only [exec, execRxByte, hp, raise_refuse]

theorem exec_rxByte_sig (hp : s.ph = .rxSig) (b : Byte) : exec (.rxByte b) s = rxSigByte b { s with ck_v := false } := by
  simp only [exec, execRxByte, hp]

theorem exec_rxByte_len (hp : s.ph = .rxLen) (b : Byte) : exec (.rxByte b) s = rxLenByte b { s with ck_v := false } := by
  simp only [exec, execRxByte, hp]

theorem exec_rxByte_type (hp : s.ph = .rxType) (b : Byte) : exec (.rxByte b) s = rxTypeByte b { s with ck_v := false } := by
  simp only [exec, execRxByte, hp]

theorem exec_rxByte_data (hp : s.ph = .rxData) (b : Byte) : exec (.rxByte b) s = rxDataByte b { s with ck_v := false } := by
  simp only [exec, execRxByte, hp]

theorem exec_rxByte_crc (hp : s.ph = .rxCrc) (b : Byte) : exec (.rxByte b) s = rxCrcByte b { s with ck_v := false } := by
  simp only [exec, execRxByte, hp]

/-- R71: a reserved bit of `RX.BYTE` makes the word illegal. -/
theorem decode_rxByte_reserved {r : BitVec 24} (hr : r ≠ 0#24) (b : Byte) :
    decode (0x41#8 ++ r ++ b) = .error .reservedBitSet := by
  rw [byteWord_assoc, decode, CmdWord.op_append, CmdWord.arg_append]
  exact (decodeB_append r b .rxByte).trans (if_neg hr)

/-- R121, R127: in an open session a byte leaves the slot valid exactly when it answers `(OK, 1)`. -/
theorem Effect.slotValid_iff_of_rxByte (he : Effect s (.rxByte b) c out st val)
    (hp : s.ph ∈ [Phase.rxSig, .rxLen, .rxType, .rxData, .rxCrc]) :
    out = [] ∧ (c.ck_v = true ↔ st = .ok ∧ val = 1#32) := by
  cases he with
  | crcGood => simp
  | sigBad | sigLast | sigNext | lenNext | lenLast | lenBad | typeNext | typeLast | data | crcNext | crcBadType | crcBad => simp
  | dead _ hd => simp [hd] at hp
  | byteNoSession _ hi => rcases hi with hi | hi <;> simp [hi] at hp
  | byteFailed _ hf => simp [hf] at hp
  | slotInvalid _ hi => simp at hi

/-- Settles O25: the two refusals by their equations, an open session by cases on what the byte did. -/
theorem rxByteBySession : Obligations.RxByteBySession := by
  refine ⟨decode_byteWord fun _ => rfl, fun r b hr => decode_rxByte_reserved hr b, fun s b =>
    ⟨fun hp => exec_rxByte_noSession hp b, fun hp => exec_rxByte_failed hp b, fun hp t h => ?_⟩⟩
  obtain ⟨c, out, st, val, he, rfl⟩ := exec_effect h
  obtain ⟨rfl, hv⟩ := he.slotValid_iff_of_rxByte hp
  refine ⟨⟨[], st, val⟩, by rw [State.answer_replies, he.replies], ?_⟩
  simpa using hv

/-- R7: the signature byte by byte. -/
theorem sig_getElem?_cnt (k : BitVec 3) :
    [0x89#8, 0x50#8, 0x4E#8, 0x47#8, 0x0D#8, 0x0A#8, 0x1A#8, 0x0A#8][k.toNat]? = some (Config.sigByte k) := by
  revert k
  decide

theorem exec_rxByte_sig_differs (hp : s.ph = .rxSig) (hb : b ≠ Config.sigByte s.cnt) :
    exec (.rxByte b) s =
      .next (State.answer { s with ph := .fail, err := .badSignature, ck_v := false } [] .badSignature 0#32) :=
  (exec_rxByte_sig hp b).trans (if_pos hb)

theorem exec_rxByte_sig_last (hp : s.ph = .rxSig) (hb : b = Config.sigByte s.cnt) (hc : s.cnt = 7#3) :
    exec (.rxByte b) s = .next (State.answer { s with ck_v := false, ph := .rxLen, cnt := 0#3 } [] .ok 0#32) :=
  (exec_rxByte_sig hp b).trans <| (if_neg (not_not.2 hb)).trans (if_pos hc)

theorem exec_rxByte_sig_next (hp : s.ph = .rxSig) (hb : b = Config.sigByte s.cnt) (hc : s.cnt ≠ 7#3) :
    exec (.rxByte b) s = .next (State.answer { s with ck_v := false, cnt := s.cnt + 1#3 } [] .ok 0#32) :=
  (exec_rxByte_sig hp b).trans <| (if_neg (not_not.2 hb)).trans (if_neg hc)

/-- Settles O26, along the branches of R122. -/
theorem signatureByte : Obligations.SignatureByte := by
  intro s b hp want
  have hwant : want = some b ↔ b = Config.sigByte s.cnt := by
    rw [show want = some (Config.sigByte s.cnt) from sig_getElem?_cnt s.cnt, Option.some_inj, eq_comm]
  rw [Ne, hwant]
  exact ⟨exec_rxByte_sig_differs hp, exec_rxByte_sig_last hp, exec_rxByte_sig_next hp⟩

/-- Settles O27, along the branches of R123 and R124. -/
theorem lengthByte : Obligations.LengthByte := by
  intro s b hp len
  rw [exec_rxByte_len hp]
  refine ⟨fun hc => if_neg hc, fun hc hl => ?_, fun hc hl => ?_⟩
  · exact (if_pos hc).trans (if_neg (BitVec.not_lt.2 hl))
  · exact (if_pos hc).trans (if_pos hl)

/-- Settles O28, along the branches of R125. -/
theorem typeByte : Obligations.TypeByte := by
  intro s b hp ty crc
  rw [exec_rxByte_type hp]
  exact ⟨fun hc => if_neg hc, fun hc => if_pos hc⟩

theorem exec_rxByte_data_store (hp : s.ph = .rxData) (hf : s.fill.toNat < s.bufBytes.toNat) (b : Byte) :
    exec (.rxByte b) s =
      .next (State.answer
        { s with ck_v := false, buf := s.buf.writeByte s.fill.toNat b, crc_r := crcStep s.crc_r b, fill := s.fill + 1#32,
                 ph := if s.fill + 1#32 = s.ck_len then .rxCrc else s.ph } [] .ok 0#32) := by
  have hstore : memWrite { s with ck_v := false } s.fill.toNat b =
      .ok { s with ck_v := false, buf := s.buf.writeByte s.fill.toNat b } := memWrite_eq_ok.2 ⟨hf, rfl⟩
  rw [exec_rxByte_data hp, rxDataByte, hstore, withAccess_ok, respondOk_eq]

/-- Settles O29, with the store of R126; below the capacity `fill` does not wrap around. -/
theorem dataByteIsStored : Obligations.DataByteIsStored := by
  intro s b hp hlt hle
  have hroom : s.fill.toNat < s.bufBytes.toNat := lt_of_lt_of_le (BitVec.lt_def.1 hlt) (BitVec.le_def.1 hle)
  refine ⟨_, exec_rxByte_data_store hp hroom b, rfl, fill_succ_toNat hroom, fun hlast => if_pos hlast,
    fun hmore => (if_neg hmore).trans hp, Memory.readByte_writeByte_same .., fun _ ha => Memory.readByte_writeByte_ne _ _ ha⟩

/-- Settles O30, along the branches of R127. -/
theorem storedCrcByteAndVerdict : Obligations.StoredCrcByteAndVerdict := by
  intro s b hp crc
  rw [exec_rxByte_crc hp]
  refine ⟨fun hc => if_neg hc, fun hc ht => ?_, fun hc ht hx => ?_, fun hc ht hx => ?_⟩
  · exact (if_pos hc).trans (if_pos ht)
  · exact (if_pos hc).trans <| (if_neg (Bool.eq_false_iff.1 ht)).trans (if_pos hx)
  · exact (if_pos hc).trans <| (if_neg (Bool.eq_false_iff.1 ht)).trans (if_neg (not_not.2 hx))

/-! ### `RX.END` (R129) -/

theorem exec_rxEnd_noSession (hp : s.ph = .idle ∨ s.ph = .asm) : exec .rxEnd s = .next (s.answer [] .badPhase 0#32) := by
  rcases hp with hp | hp <;> simp only [exec, execRxEnd, hp, raise_refuse]

theorem exec_rxEnd_failed (hp : s.ph = .fail) : exec .rxEnd s = .next (s.answer [] s.err 0#32) := by
  simp only [exec, execRxEnd, hp, raise_refuse]

theorem exec_rxEnd_sig (hp : s.ph = .rxSig) : exec .rxEnd s =
    .next (State.answer { s with ph := .fail, err := .badSignature, ck_v := false } [] .badSignature 0#32) := by
  simp only [exec, execRxEnd, hp, raise_fail]

theorem exec_rxEnd_boundary (hp : s.ph = .rxLen) (hc : s.cnt = 0#3) (hm : s.rx_m = true) :
    exec .rxEnd s = .next (State.answer { s with ph := .idle } [] .ok 0#32) := by
  simp only [exec, execRxEnd, hp]
  exact if_pos ⟨hc, hm⟩

theorem exec_rxEnd_short
    (hp : s.ph = .rxLen ∧ (s.cnt ≠ 0#3 ∨ s.rx_m = false) ∨ s.ph = .rxType ∨ s.ph = .rxData ∨ s.ph = .rxCrc) :
    exec .rxEnd s =
      .next (State.answer { s with ph := .fail, err := .truncatedChunk, ck_v := false } [] .truncatedChunk 0#32) := by
  rcases hp with ⟨hp, hc⟩ | hp | hp | hp <;> simp only [exec, execRxEnd, hp, raise_fail]
  refine if_neg fun ⟨hz, hm⟩ => ?_
  rcases hc with hc | hc
  · exact hc hz
  · simp [hm] at hc

/-- Settles O31, by the phase. -/
theorem endOfInput : Obligations.EndOfInput :=
  ⟨decode_encode .rxEnd, fun _ _ => ⟨exec_rxEnd_noSession, exec_rxEnd_failed, exec_rxEnd_sig,
    fun ⟨hp, hc, hm⟩ => exec_rxEnd_boundary hp hc hm, exec_rxEnd_short⟩⟩

/-! ### The phase table (R131) -/

/-- The rows for `RX.BYTE`: each path of the command is one of them. -/
theorem Effect.rxByteRow_eq (he : Effect s (.rxByte b) c out st val) (hs : s.Inv) (hd : s.ph ≠ .dead) :
    rxByteRow s b = (c.ph, c.cnt, st, val) ∧ out = [] := by
  have hthree (hp : s.ph = .rxLen ∨ s.ph = .rxType ∨ s.ph = .rxCrc) : s.cnt < 3#3 ↔ s.cnt ≠ 3#3 := by
    have hle := hs.cntLeThree (by rintro h; simp [h] at hp) (by rintro h; simp [h] at hp) hd
    bv_omega
  have hseven : s.cnt < 7#3 ↔ s.cnt ≠ 7#3 := by bv_omega
  cases he with
  | dead _ h => exact absurd h hd
  | slotInvalid _ hi => simp at hi
  | byteNoSession _ hp => rcases hp with hp | hp <;> simp [rxByteRow, hp]
  | byteFailed _ hp => simp [rxByteRow, hp]
  | sigBad _ hp hb => simp [rxByteRow, hp, hb]
  | sigLast _ hp hb hc => simp [rxByteRow, hp, hb, hc]
  | sigNext _ hp hb hc => simp [rxByteRow, hp, hb, hseven, hc]
  | lenNext _ hp hc => simp [rxByteRow, hp, hthree, hc]
  | lenLast _ hp hc hl => simp [rxByteRow, hp, hc, hl]
  | lenBad _ hp hc hl => simp [rxByteRow, hp, hc, BitVec.not_le.2 hl]
  | typeNext _ hp hc => simp [rxByteRow, hp, hthree, hc]
  | typeLast _ hp hc => by_cases hz : s.ck_len = 0#32 <;> simp [rxByteRow, hp, hc, hz]
  | data _ hp hf =>
    have hmore : s.fill.toNat + 1 < s.ck_len.toNat ↔ s.fill + 1#32 ≠ s.ck_len := by
      have hlt := hs.dataRoom hp
      bv_omega
    have hcnt := hs.cntZero (.inr (.inr hp))
    by_cases hl : s.fill + 1#32 = s.ck_len <;> simp [rxByteRow, hp, hmore, hl, hcnt]
  | crcNext _ hp hc => simp [rxByteRow, hp, hthree, hc]
  | crcBadType _ hp hc ht => simp [rxByteRow, hp, hc, ht]
  | crcBad _ hp hc ht hx => simp [rxByteRow, hp, hc, ht, hx]
  | crcGood _ hp hc ht hx => cases hm : s.rx_m <;> simp [rxByteRow, hp, hc, ht, hx, hm]

/-- The rows for `RX.END`. -/
theorem Effect.rxEndRow_eq (he : Effect s .rxEnd c out st val) (hd : s.ph ≠ .dead) :
    rxEndRow s = (c.ph, c.cnt, st, val) ∧ out = [] := by
  cases he with
  | dead _ h => exact absurd h hd
  | slotInvalid _ hi => simp at hi
  | endNoSession hp => rcases hp with hp | hp <;> simp [rxEndRow, hp]
  | endFailed hp => simp [rxEndRow, hp]
  | endSig hp => simp [rxEndRow, hp]
  | endOk hp hc hm => simp [rxEndRow, hp, hc, hm]
  | endShort hp =>
    rcases hp with ⟨hp, hc⟩ | hp | hp | hp
    · rw [rxEndRow, hp]
      exact ⟨if_neg hc, rfl⟩
    all_goals simp [rxEndRow, hp]

/-- R131: the phase and the counter after a command outside `DEAD`, and its reply where the table gives one. -/
theorem Effect.follows_phaseRow (he : Effect s i c out st val) (hs : s.Inv) (hd : s.ph ≠ .dead) :
    c.ph = (phaseRow s c.ck_crc i).1 ∧ c.cnt = (phaseRow s c.ck_crc i).2.1 ∧
      ∀ r ∈ (phaseRow s c.ck_crc i).2.2, out = [] ∧ (st, val) = r := by
  have hbyte (b : Byte) (hi : i = .rxByte b) : rxByteRow s b = (c.ph, c.cnt, st, val) ∧ out = [] := by
    subst hi
    exact he.rxByteRow_eq hs hd
  have hend (hi : i = .rxEnd) : rxEndRow s = (c.ph, c.cnt, st, val) ∧ out = [] := by
    subst hi
    exact he.rxEndRow_eq hd
  have hasm (hp : s.ph = .asm) : s.cnt = 0#3 := hs.cntZero (.inr (.inl hp))
  cases he with
  | dead _ h => exact absurd h hd
  | byteNoSession | byteFailed | sigBad | sigLast | sigNext | lenNext | lenLast | lenBad | typeNext | typeLast | data | crcNext
  | crcBadType | crcBad | crcGood => simp [phaseRow, hbyte _ rfl]
  | endNoSession | endFailed | endSig | endOk | endShort => simp [phaseRow, hend rfl]
  | nop | stRead | crcRead | tyCheck | ckLen | ckType | ckCrc | ckFlags | ckData | ckEmit | sigEmit | badIndex => simp [phaseRow]
  | slotInvalid _ hi => cases i <;> simp at hi <;> simp [phaseRow]
  | ckClear | rxBegin => simp [phaseRow]
  | initBusy hg | byteBusy _ hg => simp [phaseRow, (Phase.usesGenerator_iff _).1 hg]
  | crcInit _ hg | crcByte _ _ hg => simp [phaseRow, ← Phase.usesGenerator_iff, hg]
  | newNotAlpha _ _ ha | ckNew _ _ ha => simp [phaseRow, ha]
  | pushNotAsm _ _ hp | buildNotAsm _ hp => simp [phaseRow, hp]
  | pushFull _ hp hf | push _ hp hf => simp [phaseRow, hp, hf, hasm]
  | build _ hp => simp [phaseRow, hp, hasm]

/-- R180: in `DEAD` a command is answered `FATAL_LENGTH` and changes nothing. -/
theorem exec_dead (hd : s.ph = .dead) (i : Instr) : exec i s = .next (s.answer [] .fatalLength 0#32) := by
  cases i with
  | rxByte b => simp only [exec, execRxByte, hd, raise_refuse]
  | rxEnd => simp only [exec, execRxEnd, hd, raise_refuse]
  | _ => exact unlessDead_dead hd

theorem step_dead {w : CmdWord} {rest : List HostEvent} (hd : s.ph = .dead) (hb : s.inbox = .command w :: rest) :
    step s = .next (State.answer { s with inbox := rest } [] .fatalLength 0#32) := by
  cases hw : decode w with
  | ok i => exact (step_of_legal hb hw).trans (exec_dead (s := { s with inbox := rest }) hd i)
  | error e => exact (step_of_illegal hb hw).trans (unlessDead_dead hd)

/-- Settles O32: the last row is `step_dead`, the others are `Effect.follows_phaseRow`. -/
theorem phaseTableOfR131 : Obligations.PhaseTableOfR131 := by
  refine ⟨fun s t w rest hd hb h => ?_, fun s t i hs hd h => ?_⟩
  · obtain rfl := Host.Outcome.next.inj ((step_dead hd hb).symm.trans h)
    exact ⟨hd, rfl, rfl⟩
  · obtain ⟨c, out, st, val, he, rfl⟩ := exec_effect h
    obtain ⟨hph, hcnt, hreply⟩ := he.follows_phaseRow hs hd
    refine ⟨hph, hcnt, fun st' v hr => ?_⟩
    obtain ⟨rfl, hsv⟩ := hreply _ hr
    obtain ⟨rfl, rfl⟩ := Prod.mk.inj hsv
    rw [State.answer_replies, he.replies]

end Sys2Proof.Machine
end

section
/-! PROOFS of the deframer family (43_deframer.md), one chunk: the bytes an open session has taken, read off its registers, and why it
does what `parse_chunk` says of them and of what follows (R132). The obligations are settled from this in the next section. -/

namespace Sys2Proof.Machine

variable {s t u s₀ t₀ d : State} {b : Byte} {v w out : List Byte} {cap n val : Word} {c : Chunk} {cs cs' : List Chunk}
  {st : Status} {r : Reply} {rs rs' : List Reply} {i : Instr}

/-! ### The bytes of a field of four -/

theorem typeBytes_eq_be32 (x : Word) : typeBytes x = be32 x := rfl

@[simp] theorem length_be32 (x : Word) : (be32 x).length = 4 := rfl

@[simp] theorem length_typeBytes (x : Word) : (typeBytes x).length = 4 := rfl

/-- A byte shifted in is the low byte; the top byte falls off (R123). -/
theorem shiftIn_toNat (x : Word) (b : Byte) : (shiftIn x b).toNat = x.toNat % 2 ^ 24 * 2 ^ 8 + b.toNat := by
  have happend : shiftIn x b = (x.setWidth 24 ++ b : Word) := by
    ext k hk
    grind [shiftIn]
  rw [happend, byteArg_toNat, BitVec.toNat_setWidth]

/-- R55: the four bytes of a number, shifted in, are the number. -/
theorem foldl_shiftIn_be32 (x : Word) : (be32 x).foldl shiftIn 0#32 = x := by
  apply BitVec.eq_of_toNat_eq
  simp only [be32, List.foldl_cons, List.foldl_nil, shiftIn_toNat, BitVec.extractLsb'_toNat, Nat.shiftRight_eq_div_pow,
    BitVec.toNat_ofNat]
  omega

/-- The bytes of a field that a counter says are in, last in the register's low bits (R55). -/
def fieldTaken (x : Word) (k : BitVec 3) : List Byte := (be32 x).drop (4 - k.toNat)

@[simp] theorem fieldTaken_zero (x : Word) : fieldTaken x 0#3 = [] := rfl

theorem length_fieldTaken (x : Word) {k : BitVec 3} (hk : k.toNat ≤ 3) : (fieldTaken x k).length = k.toNat := by
  rw [fieldTaken, List.length_drop, length_be32]
  omega

/-- A byte shifted in joins those taken so far. -/
theorem drop_be32_shiftIn {k : Nat} (hk : k ≤ 3) (x : Word) (b : Byte) :
    (be32 (shiftIn x b)).drop (3 - k) = (be32 x).drop (4 - k) ++ [b] := by
  rw [← typeBytes_eq_be32, typeBytes_shiftIn, typeBytes_eq_be32, List.drop_append_of_le_length (by simp), List.drop_drop]
  congr 2
  omega

theorem fieldTaken_shiftIn {k : BitVec 3} (hk : k.toNat ≤ 3) (x : Word) (b : Byte) :
    fieldTaken (shiftIn x b) (k + 1#3) = fieldTaken x k ++ [b] := by
  have hdrop : 4 - (k + 1#3).toNat = 3 - k.toNat := by bv_omega
  rw [fieldTaken, hdrop, drop_be32_shiftIn hk, fieldTaken]

/-- The fourth byte completes the field. -/
theorem be32_shiftIn (x : Word) (b : Byte) : be32 (shiftIn x b) = fieldTaken x 3#3 ++ [b] := drop_be32_shiftIn le_rfl x b

/-! ### `parse_chunk`, by the form of the input (R132) -/

theorem wordAt_append_be32 (p v : List Byte) (x : Word) : wordAt (p ++ be32 x ++ v) p.length = x := by
  have htake : ((p ++ be32 x ++ v).drop p.length).take 4 = be32 x := by
    rw [List.append_assoc, List.drop_left]
    exact List.take_left' rfl
  rw [wordAt, htake, foldl_shiftIn_be32]

theorem wordAt_be32_append (x : Word) (v : List Byte) : wordAt (be32 x ++ v) 0 = x := wordAt_append_be32 [] v x

theorem parseChunk_of_length_lt (h : w.length < 4) : parseChunk cap w = .bad .truncatedChunk := if_pos h

theorem parseChunk_tooLong (h : cap < n) : parseChunk cap (be32 n ++ v) = .bad .unsupportedLength := by
  rw [parseChunk, if_neg (by simp), wordAt_be32_append]
  exact if_pos h

theorem parseChunk_truncated (hn : n ≤ cap) (hv : v.length < 8 + n.toNat) :
    parseChunk cap (be32 n ++ v) = .bad .truncatedChunk := by
  rw [parseChunk, if_neg (by simp), wordAt_be32_append]
  refine (if_neg (BitVec.not_lt.2 hn)).trans (if_pos ?_)
  rw [List.length_append, length_be32]
  omega

/-- A chunk whose data are as long as its length says, and fit (R54). -/
def Chunk.Fits (c : Chunk) (cap : Word) : Prop := c.data.length = c.len.toNat ∧ c.len ≤ cap

/-- A chunk that `parse_chunk` accepts: it fits, its type passes the full gate and its CRC is right. -/
def Chunk.Good (c : Chunk) (cap : Word) : Prop :=
  c.Fits cap ∧ tyValid c.type = true ∧ c.crc = crc32 (typeBytes c.type ++ c.data)

theorem Chunk.length_wire (c : Chunk) : c.wire.length = 12 + c.data.length := by
  simp [Chunk.wire]
  omega

/-- The verdict on the wire form of a chunk, whatever follows it: the type first, then the CRC (R128). -/
theorem parseChunk_wire_append (hc : c.Fits cap) (v : List Byte) :
    parseChunk cap (c.wire ++ v) =
      if tyValid c.type = false then .bad .invalidChunkType
      else if c.crc ≠ crc32 (typeBytes c.type ++ c.data) then .bad .crcMismatch
      else .chunk c v := by
  obtain ⟨hdata, hcap⟩ := hc
  have hlength : (c.wire ++ v).length = 12 + c.len.toNat + v.length := by
    rw [List.length_append, c.length_wire, hdata]
  have hlen : wordAt (c.wire ++ v) 0 = c.len := by
    simpa [Chunk.wire] using wordAt_be32_append c.len _
  have htype : wordAt (c.wire ++ v) 4 = c.type := by
    simpa [Chunk.wire, typeBytes_eq_be32] using wordAt_append_be32 (be32 c.len) (c.data ++ be32 c.crc ++ v) c.type
  have hcrc : wordAt (c.wire ++ v) (8 + c.len.toNat) = c.crc := by
    have hbefore : (be32 c.len ++ typeBytes c.type ++ c.data).length = 8 + c.len.toNat := by simp [← hdata]; omega
    rw [← hbefore]
    exact wordAt_append_be32 _ v c.crc
  have hd : ((c.wire ++ v).drop 8).take c.len.toNat = c.data := by
    have hdrop : (c.wire ++ v).drop 8 = c.data ++ (be32 c.crc ++ v) := by simp [Chunk.wire, be32, typeBytes]
    rw [hdrop, ← hdata, List.take_left]
  have hrest : (c.wire ++ v).drop (12 + c.len.toNat) = v := by
    rw [← hdata, ← c.length_wire, List.drop_left]
  rw [parseChunk, if_neg (by omega), hlen]
  dsimp only
  rw [if_neg (BitVec.not_lt.2 hcap), if_neg (by omega), htype, hcrc, hd, hrest]
  simp only [Bool.not_eq_true']

/-- The whole of a good chunk parses, whatever follows it. -/
theorem Chunk.Good.parseChunk (hc : c.Good cap) (v : List Byte) : parseChunk cap (c.wire ++ v) = .chunk c v := by
  obtain ⟨hfits, ht, hx⟩ := hc
  rw [parseChunk_wire_append hfits, if_neg (by simp [ht]), if_neg (not_not.2 hx)]

/-! ### The part of a chunk that an open session has taken -/

/-- A session that is at a chunk boundary or inside a chunk. -/
def State.InChunk (s : State) : Prop := s.ph ∈ [Phase.rxLen, .rxType, .rxData, .rxCrc]

/-- The bytes of the current chunk taken so far, in wire order, read off the registers (R52, R123 to R127). -/
def State.taken (s : State) : List Byte :=
  match s.ph with
  | .rxLen => fieldTaken s.ck_len s.cnt
  | .rxType => be32 s.ck_len ++ fieldTaken s.ck_type s.cnt
  | .rxData => be32 s.ck_len ++ be32 s.ck_type ++ s.bytes s.fill.toNat
  | .rxCrc => be32 s.ck_len ++ be32 s.ck_type ++ s.bytes s.fill.toNat ++ fieldTaken s.ck_crc s.cnt
  | _ => []

theorem State.taken_of_rxLen (hp : s.ph = .rxLen) : s.taken = fieldTaken s.ck_len s.cnt := by
  simp only [State.taken, hp]

theorem State.taken_of_rxType (hp : s.ph = .rxType) : s.taken = be32 s.ck_len ++ fieldTaken s.ck_type s.cnt := by
  simp only [State.taken, hp]

theorem State.taken_of_rxData (hp : s.ph = .rxData) :
    s.taken = be32 s.ck_len ++ be32 s.ck_type ++ s.bytes s.fill.toNat := by
  simp only [State.taken, hp]

theorem State.taken_of_rxCrc (hp : s.ph = .rxCrc) :
    s.taken = be32 s.ck_len ++ be32 s.ck_type ++ s.bytes s.fill.toNat ++ fieldTaken s.ck_crc s.cnt := by
  simp only [State.taken, hp]

theorem State.InChunk.cases (h : s.InChunk) : s.ph = .rxLen ∨ s.ph = .rxType ∨ s.ph = .rxData ∨ s.ph = .rxCrc := by
  simpa [State.InChunk] using h

theorem State.Inv.length_bytes_fill (hs : s.Inv) : (s.bytes s.fill.toNat).length = s.fill.toNat :=
  (State.bytes_of_written hs.fillWritten).1

/-- R40: inside a field the counter stays at most 3. -/
theorem State.Inv.cnt_toNat_le_three (hs : s.Inv) (ho : s.InChunk) : s.cnt.toNat ≤ 3 := by
  rcases ho.cases with hp | hp | hp | hp <;>
    exact BitVec.le_def.1 (hs.cntLeThree (by simp [hp]) (by simp [hp]) (by simp [hp]))

/-- R128: an input that ends inside a chunk is cut short. -/
theorem State.Inv.parseChunk_taken (hs : s.Inv) (ho : s.InChunk) : parseChunk s.bufBytes s.taken = .bad .truncatedChunk := by
  have hcnt := hs.cnt_toNat_le_three ho
  have hbytes := hs.length_bytes_fill
  rcases ho.cases with hp | hp | hp | hp
  · rw [State.taken_of_rxLen hp]
    exact parseChunk_of_length_lt (by rw [length_fieldTaken _ hcnt]; omega)
  · rw [State.taken_of_rxType hp]
    exact parseChunk_truncated (hs.lenLe (.inl hp)) (by simp [length_fieldTaken _ hcnt]; omega)
  · rw [State.taken_of_rxData hp, List.append_assoc]
    have hlt := BitVec.lt_def.1 (hs.dataRoom hp)
    exact parseChunk_truncated (hs.lenLe (.inr (.inl hp))) (by simp; omega)
  · rw [State.taken_of_rxCrc hp, List.append_assoc, List.append_assoc]
    have hfill := hs.dataDone hp
    exact parseChunk_truncated (hs.lenLe (.inr (.inr hp))) (by rw [← hfill]; simp [length_fieldTaken _ hcnt]; omega)

/-! ### What one byte does to an open session -/

/-- What a byte `b` given to an open session in `s` can lead to, held against the parse of all the input: it is taken, or it fails
the session with the status of the parse, or it completes the chunk that the parse gives. -/
inductive ByteOutcome (s t : State) (b : Byte) : Prop where
  | taken (hr : t.replies = s.replies ++ [⟨[], .ok, 0#32⟩]) (ho : t.InChunk) (ht : t.taken = s.taken ++ [b])
  | failed (st : Status) (hr : t.replies = s.replies ++ [⟨[], st, 0#32⟩]) (hp : t.ph = .fail) (he : t.err = st)
      (hv : t.ck_v = false) (hparse : ∀ w, parseChunk s.bufBytes (s.taken ++ b :: w) = .bad st)
  | completed (hr : t.replies = s.replies ++ [⟨[], .ok, 1#32⟩]) (hp : t.ph = if s.rx_m then .rxLen else .idle)
      (hv : t.ck_v = true) (hw : s.taken ++ [b] = t.slot.wire)
      (hparse : ∀ w, parseChunk s.bufBytes (s.taken ++ b :: w) = .chunk t.slot w)

/-- R127: what is in the registers at the last byte of a chunk is the whole chunk. -/
theorem State.Inv.taken_concat_last (hs : s.Inv) (hp : s.ph = .rxCrc) (hc : s.cnt = 3#3) (b : Byte) :
    s.taken ++ [b] = (Chunk.mk s.ck_len s.ck_type (s.bytes s.ck_len.toNat) (shiftIn s.ck_crc b)).wire := by
  rw [State.taken_of_rxCrc hp, hc, List.append_assoc, ← be32_shiftIn, hs.dataDone hp]
  rfl

/-- The verdict at the last byte of a chunk is that of `parse_chunk`. -/
theorem State.Inv.parseChunk_last (hs : s.Inv) (hp : s.ph = .rxCrc) (hc : s.cnt = 3#3) (b : Byte) (w : List Byte) :
    parseChunk s.bufBytes (s.taken ++ b :: w) =
      if s.ty_bad then .bad .invalidChunkType
      else if shiftIn s.ck_crc b ≠ s.crc_r ^^^ Config.crcXorOut then .bad .crcMismatch
      else .chunk ⟨s.ck_len, s.ck_type, s.bytes s.ck_len.toNat, shiftIn s.ck_crc b⟩ w := by
  have hfits : Chunk.Fits ⟨s.ck_len, s.ck_type, s.bytes s.ck_len.toNat, shiftIn s.ck_crc b⟩ s.bufBytes :=
    ⟨by rw [← hs.dataDone hp]; exact hs.length_bytes_fill, hs.lenLe (.inr (.inr hp))⟩
  have hcrc : crc32 (typeBytes s.ck_type ++ s.bytes s.ck_len.toNat) = s.crc_r ^^^ Config.crcXorOut := by
    rw [hs.crcOfData (.inr hp), hs.dataDone hp]
    rfl
  rw [List.append_cons, hs.taken_concat_last hp hc, parseChunk_wire_append hfits]
  simp only [hcrc, hs.tyLatched (.inr hp), Bool.not_eq_true']

/-- R121 to R127: each path of `RX.BYTE` in an open session, held against the parse. -/
theorem Effect.byteOutcome (he : Effect s (.rxByte b) d out st val) (hs : s.Inv) (ho : s.InChunk) :
    ByteOutcome s (d.answer out st val) b := by
  have hcnt := hs.cnt_toNat_le_three ho
  cases he with
  | dead _ hp => simp [State.InChunk, hp] at ho
  | slotInvalid _ hi => simp at hi
  | byteNoSession _ hp => rcases hp with hp | hp <;> simp [State.InChunk, hp] at ho
  | byteFailed _ hp => simp [State.InChunk, hp] at ho
  | sigBad _ hp | sigLast _ hp | sigNext _ hp => simp [State.InChunk, hp] at ho
  | lenNext _ hp hc =>
    refine .taken rfl ho ?_
    rw [State.taken_of_rxLen (s := s) hp, ← fieldTaken_shiftIn hcnt]
    exact State.taken_of_rxLen hp
  | lenLast _ hp hc hl =>
    refine .taken rfl (by simp [State.InChunk]) ?_
    rw [State.taken_of_rxLen (s := s) hp, hc, ← be32_shiftIn, State.taken_of_rxType rfl]
    simp
  | lenBad _ hp hc hl =>
    refine .failed _ rfl rfl rfl rfl fun w => ?_
    rw [List.append_cons, State.taken_of_rxLen hp, hc, ← be32_shiftIn]
    exact parseChunk_tooLong hl
  | typeNext _ hp hc =>
    refine .taken rfl ho ?_
    rw [State.taken_of_rxType (s := s) hp, List.append_assoc, ← fieldTaken_shiftIn hcnt]
    exact State.taken_of_rxType hp
  | typeLast _ hp hc =>
    have htaken : s.taken ++ [b] = be32 s.ck_len ++ be32 (shiftIn s.ck_type b) := by
      rw [State.taken_of_rxType hp, hc, List.append_assoc, ← be32_shiftIn]
    by_cases hz : s.ck_len = 0#32
    · refine .taken rfl (by simp [State.InChunk, hz]) ?_
      rw [htaken, State.taken_of_rxCrc (if_pos hz)]
      simp [State.bytes_zero]
    · refine .taken rfl (by simp [State.InChunk, hz]) ?_
      rw [htaken, State.taken_of_rxData (if_neg hz)]
      simp [State.bytes_zero]
  | data _ hp hf =>
    have htaken : s.taken ++ [b] = be32 s.ck_len ++ be32 s.ck_type ++
        State.bytes { s with buf := s.buf.writeByte s.fill.toNat b } (s.fill + 1#32).toNat := by
      rw [State.taken_of_rxData hp, fill_succ_toNat hf, State.bytes_succ_of_store rfl, List.append_assoc]
    have hzero := hs.cntZero (.inr (.inr hp))
    by_cases hz : s.fill + 1#32 = s.ck_len
    · refine .taken rfl (by simp [State.InChunk, hz]) ?_
      rw [htaken, State.taken_of_rxCrc (if_pos hz), State.answer_cnt, hzero, fieldTaken_zero, List.append_nil]
      rfl
    · refine .taken rfl (by simp [State.InChunk, hz]) ?_
      rw [htaken]
      exact State.taken_of_rxData (if_neg hz)
  | crcNext _ hp hc =>
    refine .taken rfl ho ?_
    rw [State.taken_of_rxCrc (s := s) hp, List.append_assoc, ← fieldTaken_shiftIn hcnt]
    exact State.taken_of_rxCrc hp
  | crcBadType _ hp hc ht =>
    refine .failed _ rfl rfl rfl rfl fun w => ?_
    simp [hs.parseChunk_last hp hc, ht]
  | crcBad _ hp hc ht hx =>
    refine .failed _ rfl rfl rfl rfl fun w => ?_
    simp [hs.parseChunk_last hp hc, ht, hx]
  | crcGood _ hp hc ht hx =>
    refine .completed rfl rfl rfl (hs.taken_concat_last hp hc b) fun w => ?_
    rw [hs.parseChunk_last hp hc, if_neg (by simp [ht]), if_neg (not_not.2 hx)]
    rfl

/-! ### The invariants without the canonical form of `buf` -/

/-- A state that meets the invariants but for what `buf` holds from `fill` up: what `RX.BEGIN` makes of every live state. -/
def State.Sound (s : State) : Prop := ∃ s₀ : State, s₀.Inv ∧ s₀.agreeBelowFill s

theorem State.Inv.sound (hs : s.Inv) : s.Sound := ⟨s, hs, rfl, fun _ _ => rfl⟩

/-- Every command has a next state and keeps the invariants. -/
theorem State.Inv.exists_exec (hs : s.Inv) (i : Instr) : ∃ t, exec i s = .next t ∧ t.Inv := by
  obtain ⟨t, hx⟩ := exists_next_exec hs i
  obtain ⟨d, out, st, val, he, rfl⟩ := exec_effect hx
  exact ⟨_, hx, (he.inv hs).answer out st val⟩

theorem State.Sound.of_exec (hs : s.Sound) (hx : exec i s = .next t) : t.Sound := by
  obtain ⟨s₀, hs₀, hagree⟩ := hs
  obtain ⟨t₀, hx₀, ht₀⟩ := hs₀.exists_exec i
  obtain ⟨t', hx', hagree'⟩ := alike_exec hs₀ hagree i t₀ hx₀
  obtain rfl := Host.Outcome.next.inj (hx.symm.trans hx')
  exact ⟨t₀, ht₀, hagree'⟩

theorem State.agreeBelowFill.taken (h : s.agreeBelowFill t) : t.taken = s.taken := by
  obtain ⟨m, rfl, hm⟩ := h.exists_buf
  have hbytes : State.bytes { s with buf := m } s.fill.toNat = s.bytes s.fill.toNat := State.bytes_congr hm
  simp only [State.taken, hbytes]

/-- R41 b: the slot is what lies below `fill`. -/
theorem State.agreeBelowFill.slot (h : s.agreeBelowFill t) (hs : s.Inv) (hv : s.ck_v = true) : t.slot = s.slot := by
  have hfill := hs.slotFill hv
  obtain ⟨m, rfl, hm⟩ := h.exists_buf
  have hbytes : State.bytes { s with buf := m } s.ck_len.toNat = s.bytes s.ck_len.toNat :=
    State.bytes_congr (by rwa [← hfill])
  simp only [State.slot, hbytes]

/-- What the registers hold of a valid slot is a chunk that fits, and `buf` holds its data. -/
theorem State.Sound.slot_fits (hs : s.Sound) (hv : s.ck_v = true) : s.slot.Fits s.bufBytes ∧ s.holds s.slot.data := by
  obtain ⟨s₀, hs₀, hagree⟩ := hs
  have hv₀ : s₀.ck_v = true := hagree.ck_v ▸ hv
  have hfill := hs₀.slotFill hv₀
  obtain ⟨hroom, hwritten⟩ := hs₀.slotData hv₀
  obtain ⟨m, rfl, hm⟩ := hagree.exists_buf
  have hwritten' := State.written_congr (t := { s₀ with buf := m }) (by rwa [← hfill]) hwritten
  obtain ⟨hlength, hholds⟩ := State.bytes_of_written hwritten'
  exact ⟨⟨hlength, BitVec.le_def.2 hroom⟩, hholds⟩

theorem ByteOutcome.of_agree (h : s₀.agreeBelowFill s) (h' : t₀.agreeBelowFill t) (ht₀ : t₀.Inv)
    (ho : ByteOutcome s₀ t₀ b) : ByteOutcome s t b := by
  have htaken := h.taken
  have htaken' := h'.taken
  have hslot := h'.slot ht₀
  obtain ⟨m, rfl, -⟩ := h.exists_buf
  obtain ⟨m', rfl, -⟩ := h'.exists_buf
  cases ho with
  | taken hr ho ht => exact .taken hr ho (by rw [htaken', htaken, ht])
  | failed st hr hp he hv hparse => exact .failed st hr hp he hv (by rwa [htaken])
  | completed hr hp hv hw hparse =>
    exact .completed hr hp hv (by rw [htaken, hslot hv, hw]) (by rwa [htaken, hslot hv])

/-- The byte of an open session: it is answered, and what it leads to is what the parse says. -/
theorem State.Sound.rxByte (hs : s.Sound) (ho : s.InChunk) (b : Byte) :
    ∃ t, exec (.rxByte b) s = .next t ∧ t.Sound ∧ t.rx_m = s.rx_m ∧ t.bufBytes = s.bufBytes ∧ ByteOutcome s t b := by
  obtain ⟨s₀, hs₀, hagree⟩ := hs
  obtain ⟨t₀, hx₀, ht₀⟩ := hs₀.exists_exec (.rxByte b)
  obtain ⟨t, hx, hagree'⟩ := alike_exec hs₀ hagree _ t₀ hx₀
  have ho₀ : s₀.InChunk := by rwa [State.InChunk, ← hagree.ph]
  obtain ⟨d, out, st, val, he, rfl⟩ := exec_effect hx₀
  have hout := (he.byteOutcome hs₀ ho₀).of_agree hagree hagree' ht₀
  have hmode : d.rx_m = s₀.rx_m := he.sameIn_of_notMem_registersWritten (r := .rx_m) (by simp [registersWritten])
  obtain ⟨-, hcap, -⟩ := he.frame
  refine ⟨t, hx, ⟨_, ht₀, hagree'⟩, ?_, ?_, hout⟩
  · rw [hagree'.rx_m, hagree.rx_m]
    exact hmode
  · rw [hagree'.1, hagree.1]
    exact hcap

/-- An input that ends inside a chunk is cut short. -/
theorem State.Sound.parseChunk_taken (hs : s.Sound) (ho : s.InChunk) :
    parseChunk s.bufBytes s.taken = .bad .truncatedChunk := by
  obtain ⟨s₀, hs₀, hagree⟩ := hs
  rw [hagree.taken, hagree.1]
  exact hs₀.parseChunk_taken (by rwa [State.InChunk, ← hagree.ph])

/-! ### Runs of `RX.BYTE` -/

/-- Fed the bytes `w`, a session goes from `s` to `t`, answers `rs` and yields the chunks `cs`. -/
structure Feed (s : State) (w : List Byte) (t : State) (rs : List Reply) (cs : List Chunk) : Prop where
  run : execAll (w.map Instr.rxByte) s = .next t
  replies : t.replies = s.replies ++ rs
  slots : ∀ v, slotsSeen (w ++ v) s = cs ++ slotsSeen v t

theorem Feed.nil (s : State) : Feed s [] s [] [] := ⟨rfl, by simp, fun _ => rfl⟩

theorem Feed.trans (h : Feed s v t rs cs) (h' : Feed t w u rs' cs') : Feed s (v ++ w) u (rs ++ rs') (cs ++ cs') where
  run := by rw [List.map_append, execAll_append_of_next h.run, h'.run]
  replies := by rw [h'.replies, h.replies, List.append_assoc]
  slots x := by rw [List.append_assoc, h.slots, h'.slots, List.append_assoc]

theorem slotsSeen_cons_of_next (hx : exec (.rxByte b) s = .next t) (w : List Byte) :
    slotsSeen (b :: w) s =
      if t.replies.getLast? = some ⟨[], .ok, 1#32⟩ then t.slot :: slotsSeen w t else slotsSeen w t := by
  simp only [slotsSeen, hx]

/-- A byte that completes no chunk. -/
theorem Feed.byte (hx : exec (.rxByte b) s = .next t) (hr : t.replies = s.replies ++ [r]) (hne : r ≠ ⟨[], .ok, 1#32⟩) :
    Feed s [b] t [r] [] where
  run := execAll_cons_of_next hx
  replies := hr
  slots v := by
    rw [List.singleton_append, slotsSeen_cons_of_next hx, if_neg (by simp [hr, hne])]
    rfl

/-- A byte that completes a chunk. -/
theorem Feed.lastByte (hx : exec (.rxByte b) s = .next t) (hr : t.replies = s.replies ++ [⟨[], .ok, 1#32⟩]) :
    Feed s [b] t [⟨[], .ok, 1#32⟩] [t.slot] where
  run := execAll_cons_of_next hx
  replies := hr
  slots v := by
    rw [List.singleton_append, slotsSeen_cons_of_next hx, if_pos (by simp [hr])]
    rfl

/-- A byte that is taken, and what follows it. -/
theorem Feed.cons (hx : exec (.rxByte b) s = .next t) (hr : t.replies = s.replies ++ [⟨[], .ok, 0#32⟩])
    (hw : Feed t w u rs cs) : Feed s (b :: w) u (⟨[], .ok, 0#32⟩ :: rs) cs :=
  (Feed.byte hx hr (by simp)).trans hw

/-- A session that refuses every byte with one status answers it again and again and stays as it is. -/
theorem Feed.refused
    (h : ∀ (rs : List Reply) (b : Byte),
      exec (.rxByte b) { s with replies := rs } = .next (State.answer { s with replies := rs } [] st 0#32))
    (w : List Byte) :
    Feed s w { s with replies := s.replies ++ List.replicate w.length ⟨[], st, 0#32⟩ }
      (List.replicate w.length ⟨[], st, 0#32⟩) [] := by
  induction w generalizing s with
  | nil => simpa using Feed.nil s
  | cons b w ih =>
    have hrest := ih (s := s.answer [] st 0#32) h
    have hall := (Feed.byte (h s.replies b) rfl (by simp)).trans hrest
    simpa [State.answer, List.replicate_succ] using hall

/-- R121: a failed session repeats its status. -/
theorem Feed.failed (hp : s.ph = .fail) (w : List Byte) :
    Feed s w { s with replies := s.replies ++ List.replicate w.length ⟨[], s.err, 0#32⟩ }
      (List.replicate w.length ⟨[], s.err, 0#32⟩) [] :=
  .refused (fun rs b => exec_rxByte_failed (s := { s with replies := rs }) hp b) w

theorem Feed.idle (hp : s.ph = .idle) (w : List Byte) :
    Feed s w { s with replies := s.replies ++ List.replicate w.length ⟨[], .badPhase, 0#32⟩ }
      (List.replicate w.length ⟨[], .badPhase, 0#32⟩) [] :=
  .refused (fun rs b => exec_rxByte_noSession (s := { s with replies := rs }) (.inl hp) b) w

/-! ### A session and the parse of its input -/

/-- The bytes `w` fail the session with `st`: some are taken, the next one fails it, the rest are answered `st` again. -/
def Fails (s : State) (w : List Byte) (st : Status) : Prop :=
  ∃ t j k, Feed s w t (List.replicate j ⟨[], .ok, 0#32⟩ ++ List.replicate (k + 1) ⟨[], st, 0#32⟩) [] ∧
    t.ph = .fail ∧ t.err = st ∧ t.ck_v = false

/-- The bytes `w` are all taken and the session stays inside a chunk. -/
def StaysOpen (s : State) (w : List Byte) : Prop :=
  ∃ t, Feed s w t (List.replicate w.length ⟨[], .ok, 0#32⟩) [] ∧ t.InChunk ∧ t.taken = s.taken ++ w ∧ t.rx_m = s.rx_m

/-- The bytes `v` complete the chunk `c`, which is in the slot of `t`. -/
structure Completes (s : State) (v : List Byte) (t : State) (c : Chunk) : Prop where
  feed : ∃ k, v.length = k + 1 ∧ Feed s v t (List.replicate k ⟨[], .ok, 0#32⟩ ++ [⟨[], .ok, 1#32⟩]) [c]
  sound : t.Sound
  valid : t.ck_v = true
  slot : t.slot = c
  phase : t.ph = if s.rx_m then .rxLen else .idle
  mode : t.rx_m = s.rx_m
  cap : t.bufBytes = s.bufBytes

/-- What feeding the bytes `w` to the session in `s` comes to, by the result of a parse. -/
inductive SessionEnd (s : State) (w : List Byte) : ParseResult → Prop where
  | failed (st : Status) (h : Fails s w st) : SessionEnd s w (.bad st)
  | stillOpen (h : StaysOpen s w) : SessionEnd s w (.bad .truncatedChunk)
  | chunk (v rest : List Byte) (t : State) (c : Chunk) (hw : w = v ++ rest) (hwire : s.taken ++ v = c.wire)
      (h : Completes s v t c) : SessionEnd s w (.chunk c rest)

/-- A byte taken first, and what the rest comes to. -/
theorem SessionEnd.cons {p : ParseResult} (h : SessionEnd t w p) (hx : exec (.rxByte b) s = .next t)
    (hr : t.replies = s.replies ++ [⟨[], .ok, 0#32⟩]) (ht : t.taken = s.taken ++ [b]) (hm : t.rx_m = s.rx_m)
    (hcap : t.bufBytes = s.bufBytes) : SessionEnd s (b :: w) p := by
  cases h with
  | failed st h =>
    obtain ⟨u, j, k, hfeed, hend⟩ := h
    exact .failed st ⟨u, j + 1, k, hfeed.cons hx hr, hend⟩
  | stillOpen h =>
    obtain ⟨u, hfeed, ho, htaken, hmode⟩ := h
    exact .stillOpen ⟨u, hfeed.cons hx hr, ho, by simp [htaken, ht], hmode.trans hm⟩
  | chunk v rest u c hw hwire h =>
    obtain ⟨k, hk, hfeed⟩ := h.feed
    refine .chunk (b :: v) rest u c (by simp [hw]) (by simp [← hwire, ht]) { h with
      feed := ⟨k + 1, by simp [hk], hfeed.cons hx hr⟩
      phase := hm ▸ h.phase
      mode := h.mode.trans hm
      cap := h.cap.trans hcap }

/-- R132: an open session fed the bytes `w` does what `parse_chunk` says of the whole input, the bytes already taken included. -/
theorem sessionEnd_parseChunk (hs : s.Sound) (ho : s.InChunk) (w : List Byte) :
    SessionEnd s w (parseChunk s.bufBytes (s.taken ++ w)) := by
  induction w generalizing s with
  | nil =>
    rw [List.append_nil, hs.parseChunk_taken ho]
    exact .stillOpen ⟨s, Feed.nil s, ho, by simp, rfl⟩
  | cons b w ih =>
    obtain ⟨t, hx, ht, hm, hcap, hout⟩ := hs.rxByte ho b
    cases hout with
    | taken hr hot htaken =>
      have hrest := ih ht hot
      rw [htaken, hcap, ← List.append_cons] at hrest
      exact hrest.cons hx hr htaken hm hcap
    | failed st hr hp he hv hparse =>
      subst he
      rw [hparse]
      exact .failed _ ⟨_, 0, w.length, (Feed.byte hx hr (by simp)).trans (Feed.failed hp w), hp, rfl, hv⟩
    | completed hr hp hv hw hparse =>
      rw [hparse]
      exact .chunk [b] w t t.slot rfl hw
        { feed := ⟨0, rfl, Feed.lastByte hx hr⟩
          sound := ht
          valid := hv
          slot := rfl
          phase := hp
          mode := hm
          cap := hcap }

end Sys2Proof.Machine
end

section
/-! PROOFS of the deframer family (43_deframer.md), whole inputs: a session does what the parse of R132 says (O33, O34), the round trips
of R133 (O35 to O37), and the flipped bit of R134 (O38). -/

namespace Sys2Proof.Machine

variable {s t u : State} {b : Byte} {v w : List Byte} {cap : Word} {c : Chunk} {cs cs' : List Chunk} {st : Status}
  {rs : List Reply}

/-! ### `RX.END` after the input -/

/-- The bytes `w` and `RX.END` end the session in `FAIL` with `st`, no chunk completed (R129, R132). -/
def FailsAtEnd (s : State) (w : List Byte) (st : Status) : Prop :=
  ∃ t rs, execAll (w.map Instr.rxByte ++ [.rxEnd]) s = .next t ∧ t.ph = .fail ∧ t.err = st ∧ t.ck_v = false ∧
    t.replies = s.replies ++ rs ++ [⟨[], st, 0#32⟩] ∧ (∀ r ∈ rs, r.out = [] ∧ (r.st = .ok ∨ r.st = st) ∧ r.val = 0#32) ∧
    slotsSeen w s = []

theorem Feed.rxEnd (h : Feed s w t rs cs) (hx : exec .rxEnd t = .next u) :
    execAll (w.map Instr.rxByte ++ [.rxEnd]) s = .next u :=
  (execAll_append_of_next h.run).trans (execAll_cons_of_next hx)

theorem Feed.slotsSeen_eq (h : Feed s w t rs cs) : slotsSeen w s = cs := by
  simpa [slotsSeen] using h.slots []

theorem Fails.rxEnd (h : Fails s w st) : FailsAtEnd s w st := by
  obtain ⟨t, j, k, hfeed, hp, rfl, hv⟩ := h
  refine ⟨_, _, hfeed.rxEnd (exec_rxEnd_failed hp), hp, rfl, hv, by rw [State.answer_replies, hfeed.replies], ?_,
    hfeed.slotsSeen_eq⟩
  intro r hr
  rcases List.mem_append.1 hr with hr | hr <;> simp [List.eq_of_mem_replicate hr]

/-- The bytes `w` are all taken, and `RX.END` then fails the session with `st`. -/
theorem FailsAtEnd.of_taken (h : Feed s w t (List.replicate w.length ⟨[], .ok, 0#32⟩) [])
    (hx : exec .rxEnd t = .next (State.answer { t with ph := .fail, err := st, ck_v := false } [] st 0#32)) :
    FailsAtEnd s w st := by
  refine ⟨_, _, h.rxEnd hx, rfl, rfl, rfl, by rw [State.answer_replies, h.replies], fun r hr => ?_, h.slotsSeen_eq⟩
  simp [List.eq_of_mem_replicate hr]

/-- A byte taken first, and a session that the rest fails. -/
theorem FailsAtEnd.cons (h : FailsAtEnd t w st) (hx : exec (.rxByte b) s = .next t)
    (hr : t.replies = s.replies ++ [⟨[], .ok, 0#32⟩]) : FailsAtEnd s (b :: w) st := by
  obtain ⟨u, rs, hrun, hp, he, hv, hreplies, hrs, hslots⟩ := h
  refine ⟨u, ⟨[], .ok, 0#32⟩ :: rs, (execAll_cons_of_next hx).trans hrun, hp, he, hv, by simp [hreplies, hr],
    List.forall_mem_cons.2 ⟨⟨rfl, .inl rfl, rfl⟩, hrs⟩, ?_⟩
  rw [slotsSeen_cons_of_next hx, if_neg (by simp [hr]), hslots]

/-- R30: a session at a chunk boundary. -/
def State.AtBoundary (s : State) : Prop := s.ph = .rxLen ∧ s.cnt = 0#3

theorem State.AtBoundary.inChunk (h : s.AtBoundary) : s.InChunk := by simp [State.InChunk, h.1]

theorem State.AtBoundary.taken (h : s.AtBoundary) : s.taken = [] := by
  rw [State.taken_of_rxLen h.1, h.2, fieldTaken_zero]

/-- R129: a session that is not at a chunk boundary of mode 1 is cut short by `RX.END`. -/
theorem exec_rxEnd_inChunk (ho : s.InChunk) (hb : s.rx_m = false ∨ ¬s.AtBoundary) :
    exec .rxEnd s =
      .next (State.answer { s with ph := .fail, err := .truncatedChunk, ck_v := false } [] .truncatedChunk 0#32) := by
  refine exec_rxEnd_short (ho.cases.imp_left fun hp => ⟨hp, ?_⟩)
  rcases hb with hm | hb
  · exact .inr hm
  · exact .inl fun hc => hb ⟨hp, hc⟩

/-- From a boundary, a session still open is inside a chunk unless nothing was fed. -/
theorem StaysOpen.rxEnd (h : StaysOpen s w) (hb : s.AtBoundary) (hmode : s.rx_m = false ∨ w ≠ []) :
    FailsAtEnd s w .truncatedChunk := by
  obtain ⟨t, hfeed, ho, htaken, hm⟩ := h
  refine .of_taken hfeed (exec_rxEnd_inChunk ho (hmode.imp hm.trans fun hw hbt => hw ?_))
  rw [hbt.taken, hb.taken] at htaken
  exact htaken.symm

/-- R132: a session at a boundary, fed the bytes `w` and no more, by the result of the parse. -/
theorem SessionEnd.rxEnd (h : SessionEnd s w (.bad st)) (hb : s.AtBoundary) (hmode : s.rx_m = false ∨ w ≠ []) :
    FailsAtEnd s w st := by
  cases h with
  | failed _ h => exact h.rxEnd
  | stillOpen h => exact h.rxEnd hb hmode

theorem sessionEnd_of_atBoundary (hs : s.Sound) (hb : s.AtBoundary) (w : List Byte) :
    SessionEnd s w (parseChunk s.bufBytes w) := by
  have h := sessionEnd_parseChunk hs hb.inChunk w
  rwa [hb.taken, List.nil_append] at h

/-! ### A session from `RX.BEGIN` on -/

/-- R120: what a session starts from. -/
theorem exists_begin (hd : s.ph ≠ .dead) (m : Bool) :
    ∃ u, exec (.rxBegin m) s = .next u ∧ u.Sound ∧ u.ph = (if m then .rxSig else .rxLen) ∧ u.cnt = 0#3 ∧ u.rx_m = m ∧
      u.bufBytes = s.bufBytes ∧ u.replies = s.replies ++ [⟨[], .ok, 0#32⟩] := by
  have hinv : State.Inv { s.restart (if m then .rxSig else .rxLen) with rx_m := m, buf := [] } :=
    .of_resting List.Pairwise.nil (BitVec.le_def.2 (Nat.zero_le _)) (State.written_zero _) rfl rfl
      (by cases m <;> simp) (by cases m <;> simp) (by cases m <;> simp) (by simp)
  exact ⟨_, exec_rxBegin_live hd m, ⟨_, hinv.answer [] .ok 0#32, rfl, by simp⟩, rfl, rfl, rfl, rfl, rfl⟩

/-- A mode-0 session starts at a chunk boundary, so it ends as the parse of the input says. -/
theorem exists_session (hd : s.ph ≠ .dead) (w : List Byte) :
    ∃ u, exec (.rxBegin false) s = .next u ∧ u.rx_m = false ∧ u.AtBoundary ∧ u.bufBytes = s.bufBytes ∧
      u.replies = s.replies ++ [⟨[], .ok, 0#32⟩] ∧ SessionEnd u w (parseChunk s.bufBytes w) := by
  obtain ⟨u, hx, hs, hp, hc, hm, hcap, hr⟩ := exists_begin hd false
  exact ⟨u, hx, hm, ⟨hp, hc⟩, hcap, hr, hcap ▸ sessionEnd_of_atBoundary hs ⟨hp, hc⟩ w⟩

/-- Settles O33: the session ends as the parse says (`exists_session`), and a chunk that is in the slot is all there. -/
theorem singleChunkSessionIsParseChunk : Obligations.SingleChunkSessionIsParseChunk := by
  intro s w hd
  obtain ⟨u, hbegin, hm, hb, -, hr, hend⟩ := exists_session hd w
  split
  next c rest hparse =>
    rw [hparse] at hend
    cases hend with
    | chunk v _ t _ hw hwire hc =>
      rw [hb.taken, List.nil_append] at hwire
      subst hwire
      obtain ⟨k, hk, hfeed⟩ := hc.feed
      obtain ⟨⟨hlen, -⟩, hholds⟩ := hc.sound.slot_fits hc.valid
      rw [hc.slot] at hlen hholds
      refine ⟨hw, t, (execAll_cons_of_next hbegin).trans hfeed.run, ?_, hc.valid, hc.slot, hholds, hlen, ?_⟩
      · rw [hc.phase, hm]
        rfl
      · have hcount : 12 + c.len.toNat = k + 1 := by rw [← hk, c.length_wire, hlen]
        rw [hfeed.replies, hr, hcount, List.replicate_succ]
        simp
  next st hparse =>
    rw [hparse] at hend
    obtain ⟨t, rs, hrun, hp, he, hv, hreplies, hrs, -⟩ := hend.rxEnd hb (.inl hm)
    refine ⟨t, ⟨[], .ok, 0#32⟩ :: rs, (execAll_cons_of_next hbegin).trans hrun, hp, he, hv, by simp [hreplies, hr], ?_⟩
    exact List.forall_mem_cons.2 ⟨⟨rfl, .inl rfl, rfl⟩, hrs⟩

/-- R151: `CK.EMIT` of a valid slot emits its wire form. -/
theorem State.Sound.exec_ckEmit (hs : s.Sound) (hd : s.ph ≠ .dead) (hv : s.ck_v = true) :
    exec .ckEmit s = .next (s.answer s.slot.wire .ok 0#32) := by
  obtain ⟨⟨hlen, hcap⟩, hholds⟩ := hs.slot_fits hv
  have hread : memReadRange s 0 s.ck_len.toNat = .ok s.slot.data :=
    hlen ▸ memReadRange_of_holds hholds (hlen ▸ BitVec.le_def.1 hcap)
  refine (unlessDead_live hd).trans <| (if_pos hv).trans ?_
  rw [hread]
  rfl

/-- Settles O35: the emitted bytes are the wire form of a good chunk (R41), which parses back (O33). -/
theorem emitThenParseIsTheSameChunk : Obligations.EmitThenParseIsTheSameChunk := by
  intro s hs hv ht
  obtain ⟨-, -, hd⟩ := hs.phase_of_slot hv
  obtain ⟨hfits, hholds⟩ := hs.sound.slot_fits hv
  have hcrc : s.slot.crc = crc32 (typeBytes s.slot.type ++ s.slot.data) := by
    have h := hs.slotCrc hv
    rwa [hs.slotFill hv] at h
  have hparse : parseChunk s.bufBytes s.slot.wire = .chunk s.slot [] := by
    simpa using Chunk.Good.parseChunk ⟨hfits, ht, hcrc⟩ []
  have hsession := singleChunkSessionIsParseChunk (s.answer s.slot.wire .ok 0#32) s.slot.wire hd
  rw [State.answer_bufBytes, hparse] at hsession
  obtain ⟨-, t, hrun, -, hvalid, hslot, hholds', hlen, hreplies⟩ := hsession
  refine ⟨_, t, hs.sound.exec_ckEmit hd hv, rfl, hrun, hvalid, congrArg Chunk.len hslot, congrArg Chunk.type hslot,
    congrArg Chunk.crc hslot, fun a ha => ?_, hreplies⟩
  have hlt : a < s.slot.data.length := by rwa [hlen]
  rw [hholds' a hlt, hholds a hlt]

/-- Settles O36: the last byte answered `(OK, 1)`, so it completed a chunk (`SessionEnd`), and what was fed is its wire form. -/
theorem parseThenEmitIsTheSameBytes : Obligations.ParseThenEmitIsTheSameBytes := by
  intro s t w hd hrun hlast
  obtain ⟨u, hbegin, hm, hb, -, hr, hend⟩ := exists_session hd w
  rw [execAll_cons_of_next hbegin] at hrun
  generalize parseChunk s.bufBytes w = p at hend
  cases hend with
  | failed st h =>
    obtain ⟨t', j, k, hfeed, -⟩ := h
    obtain rfl := Host.Outcome.next.inj (hrun.symm.trans hfeed.run)
    simp [hfeed.replies, List.replicate_succ'] at hlast
  | stillOpen h =>
    obtain ⟨t', hfeed, -⟩ := h
    obtain rfl := Host.Outcome.next.inj (hrun.symm.trans hfeed.run)
    rw [hfeed.replies, hr, List.append_assoc, List.singleton_append, ← List.replicate_succ, List.replicate_succ'] at hlast
    simp at hlast
  | chunk v rest t' c hw hwire hc =>
    rw [hb.taken, List.nil_append] at hwire
    have hidle : t'.ph = .idle := by rw [hc.phase, hm]; rfl
    obtain ⟨k, -, hfeed⟩ := hc.feed
    have hall := hfeed.trans (Feed.idle hidle rest)
    rw [← hw] at hall
    obtain rfl := Host.Outcome.next.inj (hrun.symm.trans hall.run)
    cases rest with
    | nil =>
      rw [List.append_nil] at hw
      have hemit := hc.sound.exec_ckEmit (by simp [hidle]) hc.valid
      rw [hc.slot, ← hwire, ← hw] at hemit
      simpa using hemit
    | cons b rest => simp [List.replicate_succ'] at hlast

/-! ### A stream of chunks -/

/-- The bytes `w` and `RX.END` end a mode-1 session as the result `p` of a repeated parse says: its chunks, then its status. -/
def StreamEnds (s : State) (w : List Byte) (p : List Chunk × Status) : Prop :=
  ∃ t rs, execAll (w.map Instr.rxByte ++ [.rxEnd]) s = .next t ∧ t.replies = s.replies ++ rs ++ [⟨[], p.2, 0#32⟩] ∧
    (if p.2 = .ok then t.ph = .idle else t.ph = .fail ∧ t.err = p.2) ∧ slotsSeen w s = p.1

theorem FailsAtEnd.streamEnds (h : FailsAtEnd s w st) (hst : st ≠ .ok) : StreamEnds s w ([], st) := by
  obtain ⟨t, rs, hrun, hp, he, -, hreplies, -, hslots⟩ := h
  exact ⟨t, rs, hrun, hreplies, by rw [if_neg hst]; exact ⟨hp, he⟩, hslots⟩

/-- What was fed before, and how the rest of the stream ends. -/
theorem StreamEnds.append (h : Feed s v t rs cs) (h' : StreamEnds t w (cs', st)) :
    StreamEnds s (v ++ w) (cs ++ cs', st) := by
  obtain ⟨u, rs', hrun, hreplies, hend, hslots⟩ := h'
  refine ⟨u, rs ++ rs', ?_, by simp [hreplies, h.replies], hend, by rw [h.slots, hslots]⟩
  rw [List.map_append, List.append_assoc, execAll_append_of_next h.run, hrun]

/-- R129: at a chunk boundary of mode 1 the stream may end. -/
theorem StreamEnds.of_atBoundary (hb : s.AtBoundary) (hm : s.rx_m = true) : StreamEnds s [] ([], .ok) :=
  ⟨_, [], execAll_cons_of_next (exec_rxEnd_boundary hb.1 hb.2 hm), by simp, rfl, rfl⟩

theorem parseChunk_ne_bad_ok (cap : Word) (w : List Byte) : parseChunk cap w ≠ .bad .ok := by
  unfold parseChunk
  dsimp only
  split_ifs <;> simp

/-- R127: in mode 1 a completed chunk leaves the session at a boundary. -/
theorem Completes.atBoundary (h : Completes s v t c) (hm : s.rx_m = true) : t.AtBoundary := by
  have hp : t.ph = .rxLen := by rw [h.phase, hm]; rfl
  obtain ⟨s₀, hs₀, hagree⟩ := h.sound
  rcases hs₀.slotPlace (hagree.ck_v ▸ h.valid) with hi | ⟨-, hc, -⟩
  · simp [← hagree.ph, hp] at hi
  · exact ⟨hp, hagree.cnt.trans hc⟩

/-- R132 b, after the signature: chunk after chunk, by induction on the fuel of `parseChunks`. -/
theorem streamEnds_parseChunks {k : Nat} (hs : s.Sound) (hb : s.AtBoundary) (hm : s.rx_m = true) (hk : w.length ≤ k) :
    StreamEnds s w (parseChunks s.bufBytes k w) := by
  induction k generalizing s w with
  | zero =>
    obtain rfl := List.length_eq_zero_iff.1 (Nat.le_zero.1 hk)
    exact .of_atBoundary hb hm
  | succ k ih =>
    cases w with
    | nil => exact .of_atBoundary hb hm
    | cons b w =>
      have hend := sessionEnd_of_atBoundary hs hb (b :: w)
      unfold parseChunks
      split
      next st hparse =>
        rw [hparse] at hend
        exact (hend.rxEnd hb (.inr (by simp))).streamEnds fun hst => parseChunk_ne_bad_ok _ _ (hst ▸ hparse)
      next c rest hparse =>
        rw [hparse] at hend
        cases hend with
        | chunk v _ t _ hw hwire hc =>
          obtain ⟨j, hj, hfeed⟩ := hc.feed
          have hlength := congrArg List.length hw
          rw [List.length_append, hj] at hlength
          have hrest := ih hc.sound (hc.atBoundary hm) (hc.mode.trans hm) (w := rest) (by omega)
          rw [hc.cap] at hrest
          rw [hw]
          exact .append hfeed hrest

/-! ### The signature (R122) -/

theorem sig_drop_cnt (k : BitVec 3) :
    Config.sig.toList.drop k.toNat = Config.sigByte k :: if k = 7#3 then [] else Config.sig.toList.drop (k + 1#3).toNat := by
  revert k
  decide

/-- A mode-1 session in `RX_SIG`, fed the bytes `w`: the rest of the signature leads to a chunk boundary, anything else fails. -/
theorem signature_or_fails (hs : s.Sound) (hp : s.ph = .rxSig) (hm : s.rx_m = true) (w : List Byte) :
    (∃ v t rs, w = Config.sig.toList.drop s.cnt.toNat ++ v ∧ Feed s (Config.sig.toList.drop s.cnt.toNat) t rs [] ∧ t.Sound ∧
        t.AtBoundary ∧ t.rx_m = true ∧ t.bufBytes = s.bufBytes) ∨
      ¬Config.sig.toList.drop s.cnt.toNat <+: w ∧ FailsAtEnd s w .badSignature := by
  induction w generalizing s with
  | nil => exact .inr ⟨by simp [sig_drop_cnt], .of_taken (Feed.nil s) (exec_rxEnd_sig hp)⟩
  | cons b w ih =>
    rw [sig_drop_cnt]
    by_cases hbyte : b = Config.sigByte s.cnt
    · by_cases hc : s.cnt = 7#3
      · have hx := exec_rxByte_sig_last hp hbyte hc
        rw [if_pos hc, ← hbyte]
        exact .inl ⟨w, _, _, rfl, Feed.byte hx rfl (by simp), hs.of_exec hx, ⟨rfl, rfl⟩, hm, rfl⟩
      · have hx := exec_rxByte_sig_next hp hbyte hc
        rw [if_neg hc, ← hbyte]
        rcases ih (hs.of_exec hx) hp hm with ⟨v, t, rs, hw, hfeed, hend⟩ | ⟨hnot, hfails⟩
        · exact .inl ⟨v, t, _, congrArg (b :: ·) hw, hfeed.cons hx rfl, hend⟩
        · exact .inr ⟨fun hpre => hnot (List.cons_prefix_cons.1 hpre).2, hfails.cons hx rfl⟩
    · have hfeed := (Feed.byte (exec_rxByte_sig_differs hp hbyte) rfl (by simp)).trans (Feed.failed rfl w)
      have hfails : Fails s (b :: w) .badSignature := ⟨_, 0, w.length, hfeed, rfl, rfl, rfl⟩
      exact .inr ⟨fun hpre => hbyte (List.cons_prefix_cons.1 hpre).1.symm, hfails.rxEnd⟩

/-- Settles O34: the signature, then chunk after chunk (`streamEnds_parseChunks`). -/
theorem streamSessionIsParseStream : Obligations.StreamSessionIsParseStream := by
  intro s w hd
  obtain ⟨u, hbegin, hs, hp, hc, hm, hcap, hr⟩ := exists_begin hd true
  have hend : StreamEnds u w (parseStream s.bufBytes w) := by
    have hsig := signature_or_fails hs hp hm w
    rw [hc, BitVec.toNat_zero, List.drop_zero] at hsig
    unfold parseStream
    rcases hsig with ⟨v, t, rs, rfl, hfeed, ht, hb, hmode, hcap'⟩ | ⟨hnot, hfails⟩
    · have htake : (Config.sig.toList ++ v).take 8 = Config.sig.toList := List.take_left' rfl
      have hdrop : (Config.sig.toList ++ v).drop 8 = v := List.drop_left' rfl
      rw [if_pos htake, hdrop, ← hcap, ← hcap']
      exact .append hfeed (streamEnds_parseChunks ht hb hmode (by simp))
    · rw [if_neg fun htake => hnot (by rw [← htake]; exact List.take_prefix 8 w)]
      exact hfails.streamEnds (by simp)
  obtain ⟨t, rs, hrun, hreplies, hphase, hslots⟩ := hend
  refine ⟨t, ⟨[], .ok, 0#32⟩ :: rs, (execAll_cons_of_next hbegin).trans hrun, by simp [hreplies, hr], hphase, ?_⟩
  intro u' hu'
  obtain rfl := Host.Outcome.next.inj (hbegin.symm.trans hu')
  exact hslots

/-! ### Chunks that parse -/

theorem Chunk.make_fits {ty : Word} {d : List Byte} (hd : d.length ≤ cap.toNat) : (Chunk.make ty d).Fits cap := by
  have hlen : (BitVec.ofNat 32 d.length).toNat = d.length := by rw [BitVec.toNat_ofNat]; omega
  exact ⟨hlen.symm, BitVec.le_def.2 (hlen.trans_le hd)⟩

theorem Chunk.make_good {ty : Word} {d : List Byte} (ht : tyValid ty = true) (hd : d.length ≤ cap.toNat) :
    (Chunk.make ty d).Good cap := ⟨Chunk.make_fits hd, ht, rfl⟩

theorem parseChunks_wire_append (hc : c.Good cap) (k : Nat) (v : List Byte) :
    parseChunks cap (k + 1) (c.wire ++ v) = (c :: (parseChunks cap k v).1, (parseChunks cap k v).2) := by
  have hparse := hc.parseChunk v
  obtain ⟨b, w, hw⟩ : ∃ b w, c.wire ++ v = b :: w := ⟨_, _, rfl⟩
  rw [hw] at hparse ⊢
  simp only [parseChunks, hparse]

/-- R130, R133: the wire forms of good chunks, one after the other, parse to those chunks. -/
theorem parseChunks_flatMap_wire {k : Nat} (hcs : ∀ c ∈ cs, c.Good cap) (hk : (cs.flatMap Chunk.wire).length ≤ k) :
    parseChunks cap k (cs.flatMap Chunk.wire) = (cs, .ok) := by
  induction cs generalizing k with
  | nil => cases k <;> rfl
  | cons c cs ih =>
    rw [List.flatMap_cons, List.length_append, c.length_wire] at hk
    obtain ⟨k, rfl⟩ := Nat.exists_eq_add_one_of_ne_zero (n := k) (by omega)
    rw [List.flatMap_cons, parseChunks_wire_append (hcs c List.mem_cons_self),
      ih (fun c hc => hcs c (List.mem_cons_of_mem _ hc)) (by omega)]

/-- Settles O37: the stream parses to its chunks (`parseChunks_flatMap_wire`), and the session does what the parse says (O34). -/
theorem streamRoundTrip : Obligations.StreamRoundTrip := by
  intro s cs hd hcs made w
  have hgood : ∀ c ∈ made, c.Good s.bufBytes := by
    intro c hc
    obtain ⟨x, hx, rfl⟩ := List.mem_map.1 hc
    exact Chunk.make_good (hcs x hx).1 (hcs x hx).2
  have hparse : parseStream s.bufBytes w = (made, .ok) := by
    have htake : w.take 8 = Config.sig.toList := List.take_left' rfl
    have hdrop : w.drop 8 = made.flatMap Chunk.wire := List.drop_left' rfl
    rw [parseStream, if_pos htake, hdrop]
    exact parseChunks_flatMap_wire hgood (by simp [w])
  obtain ⟨t, rs, hrun, hreplies, hphase, hslots⟩ := streamSessionIsParseStream s w hd
  rw [hparse] at hreplies hphase hslots
  have hbegin := exec_rxBegin_live hd true
  exact ⟨t, _, hrun, hphase, by simp [hreplies], hbegin, hslots _ hbegin⟩

/-! ### One flipped bit (R134) -/

/-- A mode-0 session that the parse fails, other than for the input's end, is in `FAIL` at its last byte. -/
theorem exists_failed_session (hd : s.ph ≠ .dead) (hparse : parseChunk s.bufBytes w = .bad st) (hst : st ≠ .truncatedChunk) :
    ∃ u, execAll (.rxBegin false :: w.map Instr.rxByte) s = .next u ∧ u.ph = .fail ∧ u.err = st ∧ u.ck_v = false ∧
      u.replies.getLast? = some ⟨[], st, 0#32⟩ := by
  obtain ⟨u, hbegin, -, -, -, -, hend⟩ := exists_session hd w
  rw [hparse] at hend
  cases hend with
  | failed _ h =>
    obtain ⟨t, j, k, hfeed, hp, he, hv⟩ := h
    exact ⟨t, (execAll_cons_of_next hbegin).trans hfeed.run, hp, he, hv, by simp [hfeed.replies, List.replicate_succ']⟩
  | stillOpen => exact absurd rfl hst

/-- A bit flipped in one byte of a word is flipped in that byte. -/
theorem extractLsb'_flip_inside {i k : Nat} (hk : k < 32) (h : i ≤ k ∧ k < i + 8) (x : Word) :
    (x ^^^ (1#32 <<< k)).extractLsb' i 8 = x.extractLsb' i 8 ^^^ (1#8 <<< (k - i)) := by
  ext j hj
  simp only [BitVec.getElem_extractLsb', BitVec.getLsbD_xor, BitVec.getElem_xor, BitVec.getLsbD_shiftLeft,
    BitVec.getElem_shiftLeft, BitVec.getLsbD_one, BitVec.getElem_one]
  grind

/-- The other bytes stay as they are. -/
theorem extractLsb'_flip_outside {i k : Nat} (h : k < i ∨ i + 8 ≤ k) (x : Word) :
    (x ^^^ (1#32 <<< k)).extractLsb' i 8 = x.extractLsb' i 8 := by
  ext j hj
  simp only [BitVec.getElem_extractLsb', BitVec.getLsbD_xor, BitVec.getLsbD_shiftLeft, BitVec.getLsbD_one]
  grind

/-- A flipped bit of a type is a flipped bit of one of its bytes. -/
theorem typeBytes_flip {k : Nat} (hk : k < 32) (ty : Word) :
    ∃ p q b j, j < 8 ∧ typeBytes ty = p ++ b :: q ∧ typeBytes (ty ^^^ (1#32 <<< k)) = p ++ (b ^^^ (1#8 <<< j)) :: q := by
  have hflipped (i : Nat) (hi : i ≤ k) (hi' : k < i + 8) := extractLsb'_flip_inside hk ⟨hi, hi'⟩ ty
  have hkept (i : Nat) (hi : k < i ∨ i + 8 ≤ k) := extractLsb'_flip_outside hi ty
  simp only [typeBytes, typeByte0, typeByte1, typeByte2, typeByte3]
  have hwhich : k < 8 ∨ 8 ≤ k ∧ k < 16 ∨ 16 ≤ k ∧ k < 24 ∨ 24 ≤ k := by omega
  rcases hwhich with h | ⟨h, h'⟩ | ⟨h, h'⟩ | h
  · refine ⟨[_, _, _], [], _, k - 0, by omega, rfl, ?_⟩
    rw [hkept 24 (by omega), hkept 16 (by omega), hkept 8 (by omega), hflipped 0 (by omega) (by omega)]
    rfl
  · refine ⟨[_, _], [_], _, k - 8, by omega, rfl, ?_⟩
    rw [hkept 24 (by omega), hkept 16 (by omega), hflipped 8 (by omega) (by omega), hkept 0 (by omega)]
    rfl
  · refine ⟨[_], [_, _], _, k - 16, by omega, rfl, ?_⟩
    rw [hkept 24 (by omega), hflipped 16 (by omega) (by omega), hkept 8 (by omega), hkept 0 (by omega)]
    rfl
  · refine ⟨[], [_, _, _], _, k - 24, by omega, rfl, ?_⟩
    rw [hflipped 24 (by omega) (by omega), hkept 16 (by omega), hkept 8 (by omega), hkept 0 (by omega)]
    rfl

theorem crc32_flipped_type {k : Nat} (hk : k < 32) (ty : Word) (d : List Byte) :
    crc32 (typeBytes ty ++ d) ≠ crc32 (typeBytes (ty ^^^ (1#32 <<< k)) ++ d) := by
  obtain ⟨p, q, b, j, hj, hty, hflip⟩ := typeBytes_flip hk ty
  rw [hty, hflip, List.append_assoc, List.append_assoc, List.cons_append, List.cons_append]
  exact (crcDetectsOneFlippedBit p (q ++ d) b j hj).symm

theorem crc32_flipped_data {j k : Nat} {d : List Byte} (hj : j < d.length) (hk : k < 8) (m : List Byte) :
    crc32 (m ++ d) ≠ crc32 (m ++ d.modify j (· ^^^ (1#8 <<< k))) := by
  have hd : m ++ d = m ++ d.take j ++ d[j] :: d.drop (j + 1) := by
    rw [List.append_assoc, ← List.drop_eq_getElem_cons hj, List.take_append_drop]
  rw [List.modify_eq_take_cons_drop hj, ← List.append_assoc, hd]
  exact (crcDetectsOneFlippedBit _ _ _ k hk).symm

theorem flipped_ne {k : Nat} (hk : k < 32) (x : Word) : x ^^^ (1#32 <<< k) ≠ x := by
  intro h
  have hbit := congrArg (·.getLsbD k) h
  simp [hk] at hbit

/-- Settles O38: the flipped chunk still fits, so its parse is the verdict on it (`parseChunk_wire_append`), and R96 keeps its CRC and
the right one apart. -/
theorem oneFlippedBitFailsTheParse : Obligations.OneFlippedBitFailsTheParse := by
  intro s ty d hd hty hroom c ends
  have hfits : c.Fits s.bufBytes := Chunk.make_fits hroom
  have hends (c' : Chunk) (hc' : c'.Fits s.bufBytes) (hx : c'.crc ≠ crc32 (typeBytes c'.type ++ c'.data)) {st : Status}
      (hst : (if tyValid c'.type then .crcMismatch else .invalidChunkType) = st) : ends c' st := by
    subst hst
    refine exists_failed_session hd ?_ (by split_ifs <;> simp)
    have hverdict := parseChunk_wire_append hc' []
    rw [List.append_nil, if_pos hx] at hverdict
    cases hv : tyValid c'.type <;> simpa [hv] using hverdict
  refine ⟨fun j k hj hk => ?data, fun k hk => ?crc, fun k hk => ?type⟩
  case data =>
    have hlength : (d.modify j (· ^^^ (1#8 <<< k))).length = c.len.toNat := (List.length_modify ..).trans hfits.1
    exact hends { c with data := d.modify j (· ^^^ (1#8 <<< k)) } ⟨hlength, hfits.2⟩ (crc32_flipped_data hj hk _) (if_pos hty)
  case crc => exact hends { c with crc := c.crc ^^^ (1#32 <<< k) } hfits (flipped_ne hk _) (if_pos hty)
  case type => exact hends { c with type := ty ^^^ (1#32 <<< k) } hfits (crc32_flipped_type hk ty d) rfl

end Sys2Proof.Machine
end

section
/-! PROOFS of the accessor family (44_accessors.md): the four accessors of a register of the slot (O39), and `CK.DATA` (O40). -/

namespace Sys2Proof.Machine

variable {s : State} {k : Result} {i : Word}

/-! ### The slot test (R140) -/

theorem onlyIfSlotValid_valid (hv : s.ck_v = true) : onlyIfSlotValid s k = k := if_pos hv

theorem onlyIfSlotValid_invalid (hv : s.ck_v = false) : onlyIfSlotValid s k = .next (s.answer [] .badPhase 0#32) :=
  if_neg (by simp [hv])

/-- Outside `DEAD` a reader of a valid slot goes on to its own part. -/
theorem slotReader_valid (hd : s.ph ≠ .dead) (hv : s.ck_v = true) : unlessDead s (onlyIfSlotValid s k) = k :=
  (unlessDead_live hd).trans (onlyIfSlotValid_valid hv)

/-- Outside `DEAD` a reader of a slot that is not valid is refused, whatever its own part. -/
theorem slotReader_invalid (hd : s.ph ≠ .dead) (hv : s.ck_v = false) :
    unlessDead s (onlyIfSlotValid s k) = .next (s.answer [] .badPhase 0#32) :=
  (unlessDead_live hd).trans (onlyIfSlotValid_invalid hv)

/-! ### The accessors of a register (R141, R142, R143, R145) -/

/-- Settles O39: with a valid slot each command answers its own value, else the slot test refuses all four. -/
theorem accessorsAnswerTheSlot : Obligations.AccessorsAnswerTheSlot := by
  refine ⟨⟨decode_encode .ckLen, decode_encode .ckType, decode_encode .ckCrc, decode_encode .ckFlags⟩,
    fun s hd => ⟨fun hv => ?valid, fun hv => ?invalid⟩⟩
  case valid => exact ⟨slotReader_valid hd hv, slotReader_valid hd hv, slotReader_valid hd hv, slotReader_valid hd hv⟩
  case invalid =>
    intro i hi
    simp only [List.mem_cons, List.not_mem_nil, or_false] at hi
    rcases hi with rfl | rfl | rfl | rfl <;> exact slotReader_invalid hd hv

/-! ### `CK.DATA` (R144) -/

theorem exec_ckData_noSlot (hd : s.ph ≠ .dead) (hv : s.ck_v = false) (i : Word) :
    exec (.ckData i) s = .next (s.answer [] .badPhase 0#32) := slotReader_invalid hd hv

theorem exec_ckData_badIndex (hd : s.ph ≠ .dead) (hv : s.ck_v = true) (hi : s.ck_len ≤ i) :
    exec (.ckData i) s = .next (s.answer [] .badIndex 0#32) :=
  (slotReader_valid hd hv).trans (if_pos hi)

/-- The read has its value because the index, below the length, is below `BUF_BYTES` too (R51). -/
theorem exec_ckData_byte (hd : s.ph ≠ .dead) (hv : s.ck_v = true) (hi : i < s.ck_len) (hcap : s.ck_len ≤ s.bufBytes)
    {b : Byte} (hb : s.buf.readByte i.toNat = some b) :
    exec (.ckData i) s = .next (s.answer [] .ok (b.setWidth 32)) := by
  have hlt : i.toNat < s.bufBytes.toNat := (BitVec.lt_def.1 hi).trans_le (BitVec.le_def.1 hcap)
  have hread : memRead s i.toNat = .ok b := memRead_eq_ok.2 ⟨hlt, hb⟩
  refine (slotReader_valid hd hv).trans <| (if_neg (BitVec.not_le.2 hi)).trans ?_
  rw [hread, withAccess_ok, respondOk_eq]

/-- Settles O40, along the tests of R144. -/
theorem dataAccessorReadsTheByte : Obligations.DataAccessorReadsTheByte :=
  ⟨decode_wordWord fun _ => rfl, fun _ i hd => ⟨fun hv => exec_ckData_noSlot hd hv i,
    fun hv hi => exec_ckData_badIndex hd hv (BitVec.le_def.2 hi),
    fun hv hi hcap _ hb => exec_ckData_byte hd hv (BitVec.lt_def.2 hi) hcap hb⟩⟩

end Sys2Proof.Machine
end

section
/-! PROOFS of the framer family (45_framer.md): what `CK.EMIT` and `SIG.EMIT` put on `OUT` (O41, O42), that no other command emits
(O12), and the byte stream of a container (O43). -/

namespace Sys2Proof.Machine

variable {s t c : State} {i : Instr} {out : List Byte} {st : Status} {val : Word}

/-! ### The two commands (R151, R152) -/

theorem exec_ckEmit_noSlot (hd : s.ph ≠ .dead) (hv : s.ck_v = false) :
    exec .ckEmit s = .next (s.answer [] .badPhase 0#32) := slotReader_invalid hd hv

/-- R151: a valid slot whose data `buf` holds goes out in wire form. -/
theorem exec_ckEmit_holds {d : List Byte} (hd : s.ph ≠ .dead) (hv : s.ck_v = true) (hcap : s.ck_len ≤ s.bufBytes)
    (hlen : d.length = s.ck_len.toNat) (hh : s.holds d) :
    exec .ckEmit s = .next (s.answer (Chunk.wire ⟨s.ck_len, s.ck_type, d, s.ck_crc⟩) .ok 0#32) := by
  have hread : memReadRange s 0 s.ck_len.toNat = .ok d :=
    hlen ▸ memReadRange_of_holds hh (hlen ▸ BitVec.le_def.1 hcap)
  refine (slotReader_valid hd hv).trans ?_
  rw [hread, withAccess_ok, emitOk_eq, Chunk.wire]

/-- Settles O41, by the slot test; the wire form is the bytes that R151 writes out. -/
theorem emitIsTheWireLayout : Obligations.EmitIsTheWireLayout :=
  ⟨decode_encode .ckEmit, fun _ hd => ⟨exec_ckEmit_noSlot hd, fun hv hcap _ hlen hh => exec_ckEmit_holds hd hv hcap hlen hh⟩⟩

theorem exec_sigEmit_live (hd : s.ph ≠ .dead) : exec .sigEmit s = .next (s.answer Config.sig.toList .ok 0#32) :=
  unlessDead_live hd

/-- Settles O42: outside `DEAD` the command emits `SIG`, which is the eight bytes of R7. -/
theorem signatureIsEmitted : Obligations.SignatureIsEmitted :=
  ⟨decode_encode .sigEmit, fun _ hd => exec_sigEmit_live hd⟩

/-! ### Who emits (R150) -/

theorem Effect.out_eq_nil (he : Effect s i c out st val) (hck : i ≠ .ckEmit) (hsig : i ≠ .sigEmit) : out = [] := by
  cases he with
  | ckEmit => exact absurd rfl hck
  | sigEmit => exact absurd rfl hsig
  | _ => rfl

/-- `CK.EMIT` that answers `OK` emits the fields of the slot and as many data bytes as its length says, and writes nothing. -/
theorem Effect.of_ckEmit_ok (he : Effect s .ckEmit c out .ok val) : c = s ∧ out.length = 12 + s.ck_len.toNat := by
  cases he with
  | ckEmit d _ _ hread =>
    obtain ⟨hlen, -⟩ := memReadRange_eq_ok.1 hread
    exact ⟨rfl, (Chunk.length_wire ⟨s.ck_len, s.ck_type, d, s.ck_crc⟩).trans (congrArg _ hlen)⟩

theorem Effect.of_sigEmit_ok (he : Effect s .sigEmit c out .ok val) : c = s ∧ out.length = 8 := by
  cases he with
  | sigEmit => exact ⟨rfl, rfl⟩

/-- Settles O12: the reply is that of the command's one effect, and each part says what that effect can be. -/
theorem onlyTheFramerEmits : Obligations.OnlyTheFramerEmits := by
  intro s t i r h hr
  obtain ⟨c, out, st, val, he, rfl⟩ := exec_effect h
  obtain rfl : ⟨out, st, val⟩ = r := by simpa [he.replies] using hr
  refine ⟨he.out_eq_nil, ?chunk, ?signature, fun hst => (he.empty_of_ne_ok hst).2⟩
  case chunk =>
    rintro rfl rfl
    obtain ⟨rfl, hlen⟩ := he.of_ckEmit_ok
    exact ⟨hlen, rfl⟩
  case signature =>
    rintro rfl rfl
    obtain ⟨rfl, hlen⟩ := he.of_sigEmit_ok
    exact ⟨hlen, rfl⟩

/-! ### The byte stream of a container (R153) -/

@[simp] theorem State.answer_outStream (s : State) (out : List Byte) (st : Status) (val : Word) :
    (s.answer out st val).outStream = s.outStream ++ out := by
  simp [State.outStream]

/-- R5: the capacity is constant in a run. -/
theorem execAll_bufBytes {is : List Instr} (h : execAll is s = .next t) : t.bufBytes = s.bufBytes := by
  induction is generalizing s with
  | nil => rw [Host.Outcome.next.inj h]
  | cons i is ih =>
    cases hi : exec i s with
    | next u =>
      obtain ⟨c, out, st, val, he, rfl⟩ := exec_effect hi
      obtain ⟨-, hcap, -⟩ := he.frame
      rw [execAll_cons_of_next hi] at h
      exact (ih h).trans hcap
    | fault f => simp [execAll, hi] at h
    | refused r => simp [execAll, hi] at h

/-- The commands that construct and emit the chunk of a type and data (R153). -/
def chunkCommands (ck : Word × List Byte) : List Instr :=
  .ckNew ck.1 :: ck.2.map Instr.ckPush ++ [.ckBuild, .ckEmit]

/-- One chunk of the sequence: constructed as R110 says (O23), it is in the slot, and `CK.EMIT` puts its wire form on `OUT`. -/
theorem execAll_chunkCommands {ck : Word × List Byte} (hd : s.ph ≠ .dead) (ha : tyAlpha ck.1 = true)
    (hroom : ck.2.length ≤ s.bufBytes.toNat) :
    ∃ t, execAll (chunkCommands ck) s = .next t ∧ t.ph ≠ .dead ∧ t.bufBytes = s.bufBytes ∧
      t.outStream = s.outStream ++ (Chunk.make ck.1 ck.2).wire := by
  obtain ⟨u, hbuilt, hidle, hv, htype, hlen, hholds, hcrc, -, hreplies⟩ := constructionProtocol s ck.1 ck.2 hd ha hroom
  have hcap : u.bufBytes = s.bufBytes := execAll_bufBytes hbuilt
  have hslot : (⟨u.ck_len, u.ck_type, ck.2, u.ck_crc⟩ : Chunk) = Chunk.make ck.1 ck.2 := by
    rw [Chunk.make, ← hlen, BitVec.ofNat_toNat, BitVec.setWidth_eq, htype, hcrc]
  have hquiet : u.outStream = s.outStream := by simp [State.outStream, hreplies]
  have hlive : u.ph ≠ .dead := by simp [hidle]
  have hemit := exec_ckEmit_holds hlive hv (by rw [BitVec.le_def, hlen, hcap]; exact hroom) hlen.symm hholds
  refine ⟨u.answer (Chunk.make ck.1 ck.2).wire .ok 0#32, ?run, hlive, hcap, by rw [State.answer_outStream, hquiet]⟩
  have hsplit : chunkCommands ck = (.ckNew ck.1 :: ck.2.map Instr.ckPush ++ [.ckBuild]) ++ [.ckEmit] := by simp [chunkCommands]
  rw [hsplit, execAll_append_of_next hbuilt, execAll_cons_of_next hemit, hslot, execAll]

/-- The chunks of a sequence go out one after the other: each leaves the machine live and the capacity as it was. -/
theorem execAll_flatMap_chunkCommands {cks : List (Word × List Byte)} (hd : s.ph ≠ .dead)
    (hcks : ∀ ck ∈ cks, tyAlpha ck.1 = true ∧ ck.2.length ≤ s.bufBytes.toNat) :
    ∃ t, execAll (cks.flatMap chunkCommands) s = .next t ∧
      t.outStream = s.outStream ++ cks.flatMap fun ck => (Chunk.make ck.1 ck.2).wire := by
  induction cks generalizing s with
  | nil => exact ⟨s, rfl, (List.append_nil _).symm⟩
  | cons ck cks ih =>
    obtain ⟨⟨ha, hroom⟩, hrest⟩ := List.forall_mem_cons.1 hcks
    obtain ⟨u, hfirst, hlive, hcap, hout⟩ := execAll_chunkCommands hd ha hroom
    obtain ⟨t, hrun, hstream⟩ := ih hlive (by rwa [hcap])
    refine ⟨t, (execAll_append_of_next hfirst).trans hrun, ?_⟩
    rw [hstream, hout, List.flatMap_cons, List.append_assoc]

theorem length_flatMap_wire (cks : List (Word × List Byte)) :
    (cks.flatMap fun ck => (Chunk.make ck.1 ck.2).wire).length = (cks.map fun ck => 12 + ck.2.length).sum := by
  simp only [List.length_flatMap, Chunk.length_wire, Chunk.make]

/-- Settles O43: `SIG.EMIT`, then chunk after chunk (`execAll_flatMap_chunkCommands`). -/
theorem containerSerialization : Obligations.ContainerSerialization := by
  intro s cks hd hcks
  refine ⟨?length, ?stream⟩
  case length =>
    rw [List.length_append, length_flatMap_wire]
    rfl
  case stream =>
    obtain ⟨t, hrun, hstream⟩ := execAll_flatMap_chunkCommands (s := s.answer Config.sig.toList .ok 0#32) hd hcks
    refine ⟨t, (execAll_cons_of_next (exec_sigEmit_live hd)).trans hrun, ?_⟩
    rw [hstream, State.answer_outStream, List.append_assoc]

end Sys2Proof.Machine
end

section
/-! PROOFS of the system family (46_system.md): `NOP`, `ST.READ` and `CK.CLEAR` (O44). -/

namespace Sys2Proof.Machine

variable {s : State}

/-! ### The three commands outside `DEAD` (R160, R161, R162) -/

theorem exec_nop_live (hd : s.ph ≠ .dead) : exec .nop s = .next (s.answer [] .ok 0#32) := unlessDead_live hd

theorem exec_stRead_live (hd : s.ph ≠ .dead) : exec .stRead s = .next (s.answer [] .ok (statusWord s)) :=
  unlessDead_live hd

/-- R162: `CK.CLEAR` is the shared restart, with `IDLE` as the phase it leaves. -/
theorem exec_ckClear_live (hd : s.ph ≠ .dead) : exec .ckClear s = .next ((s.restart .idle).answer [] .ok 0#32) :=
  unlessDead_live hd

/-- Settles O44: each word is the encoding of its command (`decode_encode`), and the six registers of R162 are those that
`State.restart` writes. -/
theorem systemCommands : Obligations.SystemCommands :=
  ⟨⟨decode_encode .nop, decode_encode .stRead, decode_encode .ckClear⟩,
    fun _ hd => ⟨exec_nop_live hd, exec_stRead_live hd, exec_ckClear_live hd⟩⟩

end Sys2Proof.Machine
end

section
/-! PROOFS of the exceptions family (60_exceptions.md) and the reset family (70_reset_and_hazards.md): the three bad endings (O46 to
O48), `DEAD` and the illegal words (O7, O8), the way out of `FAIL` (O49), and the reset event (O10). -/

namespace Sys2Proof.Machine

variable {s t c : State} {i : Instr} {out : List Byte} {st : Status} {val : Word} {w : CmdWord} {rest : List HostEvent}

/-! ### Illegal words, words in `DEAD`, and reset (R180, R184, R200) -/

theorem step_illegal_live {e : DecodeError} (hb : s.inbox = .command w :: rest) (hd : s.ph ≠ .dead) (hw : decode w = .error e) :
    step s = .next (State.answer { s with inbox := rest } [] .illegalCommand 0#32) :=
  (step_of_illegal hb hw).trans (unlessDead_live hd)

/-- Settles O7: outside `DEAD` the answer to an illegal word is the plain refusal. -/
theorem illegalWordIsRefused : Obligations.IllegalWordIsRefused := fun _ _ _ _ hb hd hw => step_illegal_live hb hd hw

/-- Settles O8, by `step_dead`: the `DEAD` test comes first in every meaning and in the answer to an illegal word. -/
theorem deadAnswersEveryWord : Obligations.DeadAnswersEveryWord := fun _ _ _ hb hd => step_dead hd hb

/-- R36: a status word reads control fields only, and reset gives all of them their reset values, which are 0. -/
theorem statusWord_resetEvent (s : State) : statusWord s.resetEvent = 0#32 :=
  calc statusWord s.resetEvent
    _ = statusWord State.reset := rfl
    _ = 0#32 := by decide

/-- Settles O10: the step of a reset event is `State.resetEvent`, read off register by register. -/
theorem resetEventFromAnyState : Obligations.ResetEventFromAnyState := fun _ _ hb =>
  ⟨_, step_of_reset hb, rfl, rfl, rfl, rfl, rfl, rfl, rfl, rfl, rfl, rfl, rfl, statusWord_resetEvent _, fun _ => rfl, rfl, rfl,
    rfl⟩

/-! ### Refuse (R181) -/

/-- R181: three statuses are answered by refusals only, and a refusal writes nothing. The sticky answers of `FAIL` are among them,
because `err` can be any status in a state that no run reaches. -/
theorem Effect.unchanged_of_refusal_status (he : Effect s i c out st val)
    (hst : st ∈ [Status.illegalCommand, .badPhase, .badIndex]) : c = s ∧ out = [] ∧ val = 0#32 := by
  cases he with
  | dead | initBusy | byteBusy | newNotAlpha | pushNotAsm | buildNotAsm | slotInvalid | badIndex | byteNoSession
  | endNoSession | byteFailed | endFailed => exact ⟨rfl, rfl, rfl⟩
  | _ => exact absurd hst (by decide)

/-- R111: `CK.NEW` that answers `INVALID_CHUNK_TYPE` stopped at the alphabetic gate. -/
theorem Effect.unchanged_of_ckNew_refused {ty : Word} (he : Effect s (.ckNew ty) c out .invalidChunkType val) :
    c = s ∧ out = [] ∧ val = 0#32 := by
  cases he with
  | newNotAlpha => exact ⟨rfl, rfl, rfl⟩

/-- The reply seen after a legal word is that of its command's effect. -/
theorem exists_effect_of_reply {r : Reply} (hb : s.inbox = .command w :: rest) (hw : decode w = .ok i) (h : step s = .next t)
    (hr : t.replies = s.replies ++ [r]) :
    ∃ c, Effect { s with inbox := rest } i c r.out r.st r.val ∧ t = c.answer r.out r.st r.val := by
  obtain ⟨c, out, st, val, he, rfl⟩ := exec_effect ((step_of_legal hb hw).symm.trans h)
  obtain rfl : ⟨out, st, val⟩ = r := by simpa [he.replies] using hr
  exact ⟨c, he, rfl⟩

/-- A step that answers one of the three statuses of a refusal is the answer alone: a command that wrote nothing, or an illegal
word. -/
theorem step_unchanged_of_refusal_status {r : Reply} (hb : s.inbox = .command w :: rest) (hd : s.ph ≠ .dead)
    (h : step s = .next t) (hr : t.replies = s.replies ++ [r]) (hst : r.st ∈ [Status.illegalCommand, .badPhase, .badIndex]) :
    ∃ st, t = State.answer { s with inbox := rest } [] st 0#32 := by
  cases hw : decode w with
  | error e => exact ⟨_, Host.Outcome.next.inj (h.symm.trans (step_illegal_live hb hd hw))⟩
  | ok i =>
    obtain ⟨c, he, rfl⟩ := exists_effect_of_reply hb hw h hr
    obtain ⟨rfl, hout, hval⟩ := he.unchanged_of_refusal_status hst
    exact ⟨r.st, by rw [hout, hval]⟩

/-- Settles O46: in each of the four cases the step only answers, and the answer it gives is the reply that was seen. -/
theorem refusalsChangeNothing : Obligations.RefusalsChangeNothing := by
  intro s t w rest r hb h hr href
  suffices honly : ∃ st, t = State.answer { s with inbox := rest } [] st 0#32 by
    obtain ⟨st, rfl⟩ := honly
    obtain rfl : ⟨[], st, 0#32⟩ = r := by simpa using hr
    rfl
  by_cases hd : s.ph = .dead
  · exact ⟨_, Host.Outcome.next.inj (h.symm.trans (step_dead hd hb))⟩
  rcases href with hst | ⟨hst, ty, hw⟩ | ⟨hf, ⟨b, hw⟩ | hw⟩ | hdead
  · exact step_unchanged_of_refusal_status hb hd h hr hst
  · obtain ⟨c, he, rfl⟩ := exists_effect_of_reply hb hw h hr
    obtain ⟨rfl, hout, hval⟩ := Effect.unchanged_of_ckNew_refused (hst ▸ he)
    exact ⟨r.st, by rw [hout, hval]⟩
  · have hexec := (step_of_legal hb hw).trans (exec_rxByte_failed (s := { s with inbox := rest }) hf b)
    exact ⟨_, Host.Outcome.next.inj (h.symm.trans hexec)⟩
  · have hexec := (step_of_legal hb hw).trans (exec_rxEnd_failed (s := { s with inbox := rest }) hf)
    exact ⟨_, Host.Outcome.next.inj (h.symm.trans hexec)⟩
  · exact absurd hdead hd

/-! ### Fail (R182) -/

/-- A command that answers `OK` enters neither `FAIL` nor `DEAD`: it keeps the phase, or goes on to one of the other seven. -/
theorem Effect.phase_of_ok (he : Effect s i c out st val) (hst : st = .ok) : c.ph = s.ph ∨ c.ph ≠ .fail ∧ c.ph ≠ .dead := by
  cases he with
  | ckClear | ckNew | build | sigLast | lenLast | endOk => exact .inr (by simp)
  | rxBegin m => exact .inr (by cases m <;> simp)
  | typeLast | data | crcGood => exact .inr (by dsimp only; split_ifs <;> simp)
  | pushFull | sigBad | lenBad | crcBadType | crcBad | endSig | endShort => cases hst
  | _ => exact .inl rfl

/-- R182: what `raise Fail(st)` writes, over what the command wrote before. -/
def State.failWith (st : Status) (s : State) : State := { s with ph := .fail, err := st, ck_v := false }

theorem raise_fail_eq_failWith (st : Status) (s : State) : raise (.fail st) s = .next ((s.failWith st).answer [] st 0#32) := rfl

/-- R182: the statuses that a failing session can latch. -/
def failStatuses : List Status := [.invalidChunkType, .truncatedChunk, .crcMismatch, .badSignature, .unsupportedLength]

/-- R182: the ways into `FAIL`: a length too long, a bad verdict, and, with nothing written before the raise, a wrong signature byte
or an end of input in mid-parse. -/
theorem Effect.enters_fail (he : Effect s i c out st val) (hs : s.ph ≠ .fail) (hc : c.ph = .fail) :
    st ∈ failStatuses ∧
    ((∃ b, i = .rxByte b ∧ s.ph = .rxLen ∧ c = State.failWith st { s with ck_len := shiftIn s.ck_len b, cnt := 0#3 }) ∨
      (∃ b, i = .rxByte b ∧ s.ph = .rxCrc ∧ c = State.failWith st { s with ck_crc := shiftIn s.ck_crc b }) ∨
      ((∃ b, i = .rxByte b ∧ s.ph = .rxSig) ∨ i = .rxEnd ∧ s.ph ∈ [Phase.rxSig, .rxLen, .rxType, .rxData, .rxCrc]) ∧
        c = s.failWith st) := by
  have hst : st ≠ .ok := fun hok => (he.phase_of_ok hok).elim (fun hkept => hs (hkept ▸ hc)) fun hother => hother.1 hc
  cases he with
  | lenBad b hp => exact ⟨by decide, .inl ⟨b, rfl, hp, rfl⟩⟩
  | crcBadType b hp | crcBad b hp => exact ⟨by decide, .inr (.inl ⟨b, rfl, hp, rfl⟩)⟩
  | sigBad b hp => exact ⟨by decide, .inr (.inr ⟨.inl ⟨b, rfl, hp⟩, rfl⟩)⟩
  | endSig hp => exact ⟨by decide, .inr (.inr ⟨.inr ⟨rfl, by simp [hp]⟩, rfl⟩)⟩
  | endShort hp =>
    refine ⟨by decide, .inr (.inr ⟨.inr ⟨rfl, ?_⟩, rfl⟩)⟩
    rcases hp with ⟨hp, -⟩ | hp | hp | hp <;> simp [hp]
  | pushFull => cases hc
  | dead | initBusy | byteBusy | newNotAlpha | pushNotAsm | buildNotAsm | slotInvalid | badIndex | byteNoSession
  | endNoSession | byteFailed | endFailed => exact absurd hc hs
  | _ => exact absurd rfl hst

/-- Settles O47, by the ways into `FAIL` (`Effect.enters_fail`). -/
theorem failEndsASession : Obligations.FailEndsASession := by
  intro s t i hs h ht
  obtain ⟨c, out, st, val, he, rfl⟩ := exec_effect h
  obtain ⟨hst, hways⟩ := he.enters_fail hs ht
  obtain ⟨rfl, rfl⟩ := he.empty_of_ne_ok (by rintro rfl; exact absurd hst (by decide))
  rcases hways with ⟨b, rfl, hp, rfl⟩ | ⟨b, rfl, hp, rfl⟩ | ⟨hi, rfl⟩
  · refine ⟨by simp, by simp [hp], hst, rfl, rfl, rfl, ?_, by simp [hp], by simp [hp]⟩
    rintro _ ⟨⟩ -
    exact ⟨rfl, rfl, rfl⟩
  · refine ⟨by simp, by simp [hp], hst, rfl, rfl, rfl, by simp [hp], ?_, by simp [hp]⟩
    rintro _ ⟨⟩ -
    exact ⟨rfl, rfl, rfl⟩
  · rcases hi with ⟨b, rfl, hp⟩ | ⟨rfl, hp⟩
    · exact ⟨by simp, by simp [hp], hst, rfl, rfl, rfl, by simp [hp], by simp [hp], fun _ => ⟨rfl, rfl, rfl⟩⟩
    · exact ⟨.inl rfl, hp, hst, rfl, rfl, rfl, by simp, by simp, fun _ => ⟨rfl, rfl, rfl⟩⟩

/-! ### Fatal (R183) -/

/-- R183: the one way into `DEAD`. -/
theorem Effect.enters_dead (he : Effect s i c out st val) (hs : s.ph ≠ .dead) (hc : c.ph = .dead) :
    (∃ b, i = .ckPush b) ∧ s.ph = .asm ∧ s.fill = s.bufBytes ∧
      c = { s with ph := .dead, err := .fatalLength, ck_v := false } ∧ out = [] ∧ st = .fatalLength ∧ val = 0#32 := by
  have hst : st ≠ .ok := fun hok => (he.phase_of_ok hok).elim (fun hkept => hs (hkept ▸ hc)) fun hother => hother.2 hc
  cases he with
  | pushFull b hp hf => exact ⟨⟨b, rfl⟩, hp, hf, rfl, rfl, rfl, rfl⟩
  | sigBad | lenBad | crcBadType | crcBad | endSig | endShort => cases hc
  | dead | initBusy | byteBusy | newNotAlpha | pushNotAsm | buildNotAsm | slotInvalid | badIndex | byteNoSession
  | endNoSession | byteFailed | endFailed => exact absurd hc hs
  | _ => exact absurd rfl hst

/-- Settles O48: the way in is `Effect.enters_dead`, no word leads out by `step_dead`, and reset does by `step_of_reset`. -/
theorem fatalEntersDeadForGood : Obligations.FatalEntersDeadForGood := by
  refine ⟨fun s t i hs h ht => ?enters, fun s t w rest hd hb h => ?stays, fun s t rest _ hb h => ?reset⟩
  case enters =>
    obtain ⟨c, out, st, val, he, rfl⟩ := exec_effect h
    obtain ⟨hi, hp, hf, rfl, rfl, rfl, rfl⟩ := he.enters_dead hs ht
    exact ⟨hi, hp, hf, rfl⟩
  case stays =>
    obtain rfl := Host.Outcome.next.inj ((step_dead hd hb).symm.trans h)
    exact hd
  case reset =>
    obtain rfl := Host.Outcome.next.inj ((step_of_reset hb).symm.trans h)
    rfl

/-! ### Leaving `FAIL` (R190, R191) -/

/-- `FAIL` is a live phase. -/
theorem ne_dead_of_fail (hp : s.ph = .fail) : s.ph ≠ .dead := by simp [hp]

theorem ne_asm_of_fail (hp : s.ph = .fail) : s.ph ≠ .asm := by simp [hp]

theorem generatorFree_of_fail (hp : s.ph = .fail) : s.ph.usesGenerator = false := by rw [hp]; rfl

/-- R190: the three commands that leave `FAIL`. -/
def LeavesFail (i : Instr) : Prop := i = .ckClear ∨ (∃ ty, i = .ckNew ty ∧ tyAlpha ty = true) ∨ ∃ m, i = .rxBegin m

/-- R190: they restart the machine, so they clear `err`, `ty_bad`, `ck_v`, `cnt` and `fill`, and their phase is not `FAIL`. -/
theorem exec_of_leavesFail (hp : s.ph = .fail) (hi : LeavesFail i) (h : exec i s = .next t) :
    t.ph ≠ .fail ∧ t.err = .ok ∧ t.ty_bad = false ∧ t.ck_v = false ∧ t.cnt = 0#3 ∧ t.fill = 0#32 := by
  have hd := ne_dead_of_fail hp
  rcases hi with rfl | ⟨ty, rfl, ha⟩ | ⟨m, rfl⟩
  · obtain rfl := Host.Outcome.next.inj ((exec_ckClear_live hd).symm.trans h)
    simp
  · obtain rfl := Host.Outcome.next.inj ((exec_ckNew_alpha hd ha).symm.trans h)
    simp
  · obtain rfl := Host.Outcome.next.inj ((exec_rxBegin_live hd m).symm.trans h)
    cases m <;> simp

/-- R190: no other command leaves `FAIL`. -/
theorem Effect.leavesFail (he : Effect s i c out st val) (hp : s.ph = .fail) (hc : c.ph ≠ .fail) : LeavesFail i := by
  cases he with
  | ckClear => exact .inl rfl
  | ckNew ty _ ha => exact .inr (.inl ⟨ty, rfl, ha⟩)
  | rxBegin m => exact .inr (.inr ⟨m, rfl⟩)
  -- these need another phase than `FAIL`
  | pushFull _ h | build _ h | sigLast _ h | lenLast _ h | typeLast _ h | data _ h | crcGood _ h | endOk h => simp [h] at hp
  | sigBad | lenBad | crcBadType | crcBad | endSig | endShort => exact absurd rfl hc
  | _ => exact absurd hp hc

/-- R191: with no construction and no valid slot, the construction and slot commands are refused. -/
theorem exec_badPhase_of_fail (hp : s.ph = .fail) (hv : s.ck_v = false)
    (hi : i ∈ [Instr.ckBuild, .ckLen, .ckType, .ckCrc, .ckFlags, .ckEmit] ∨ (∃ b, i = .ckPush b) ∨ ∃ k, i = .ckData k) :
    exec i s = .next (s.answer [] .badPhase 0#32) := by
  have hd := ne_dead_of_fail hp
  rcases hi with hi | ⟨b, rfl⟩ | ⟨k, rfl⟩
  · simp only [List.mem_cons, List.not_mem_nil, or_false] at hi
    rcases hi with rfl | hi
    · exact exec_ckBuild_other hd (ne_asm_of_fail hp)
    · rcases hi with rfl | rfl | rfl | rfl | rfl <;> exact slotReader_invalid hd hv
  · exact exec_ckPush_other hd (ne_asm_of_fail hp) b
  · exact exec_ckData_noSlot hd hv k

/-- R191: the commands that need no session and no slot work in `FAIL`; no parse is using the generator (R95). -/
theorem exec_ok_of_fail (hp : s.ph = .fail)
    (hi : i ∈ [Instr.nop, .stRead, .crcInit, .crcRead, .sigEmit] ∨ (∃ b, i = .crcByte b) ∨ ∃ ty, i = .tyCheck ty) :
    ∃ (c : State) (out : List Byte) (val : Word), exec i s = .next (c.answer out .ok val) ∧ c.replies = s.replies := by
  have hd := ne_dead_of_fail hp
  have hg := generatorFree_of_fail hp
  rcases hi with hi | ⟨b, rfl⟩ | ⟨ty, rfl⟩
  · simp only [List.mem_cons, List.not_mem_nil, or_false] at hi
    rcases hi with rfl | rfl | rfl | rfl | rfl
    · exact ⟨_, _, _, exec_nop_live hd, rfl⟩
    · exact ⟨_, _, _, exec_stRead_live hd, rfl⟩
    · exact ⟨_, _, _, exec_crcInit_free hd hg, rfl⟩
    · exact ⟨_, _, _, exec_crcRead_live hd, rfl⟩
    · exact ⟨_, _, _, exec_sigEmit_live hd, rfl⟩
  · exact ⟨_, _, _, exec_crcByte_free hd hg b, rfl⟩
  · exact ⟨_, _, _, (unlessDead_live hd : exec (.tyCheck ty) s = .next (s.answer [] .ok (tyFlags ty))), rfl⟩

/-- Settles O49: `Effect.leavesFail` and `exec_of_leavesFail` say who leaves `FAIL` and how, and the other commands have their
equations. -/
theorem leavingFail : Obligations.LeavingFail := by
  intro s t i hp hv h
  have hd := ne_dead_of_fail hp
  have heq {u : State} (hu : exec i s = .next u) : t = u := Host.Outcome.next.inj (h.symm.trans hu)
  have hleaves (ht : t.ph ≠ .fail) : LeavesFail i := by
    obtain ⟨c, out, st, val, he, rfl⟩ := exec_effect h
    exact he.leavesFail hp ht
  refine ⟨⟨hleaves, fun hi => (exec_of_leavesFail hp hi h).1⟩, fun ht => (exec_of_leavesFail hp (hleaves ht) h).2, ?clear, ?new,
    ?begin1, ?begin0, ?sticky, fun hi => heq (exec_badPhase_of_fail hp hv hi), fun hi => ?work⟩
  case clear =>
    rintro rfl
    rw [heq (exec_ckClear_live hd)]
    rfl
  case new =>
    rintro ty rfl ha
    rw [heq (exec_ckNew_alpha hd ha)]
    rfl
  case begin1 =>
    rintro rfl
    rw [heq (exec_rxBegin_live hd true)]
    rfl
  case begin0 =>
    rintro rfl
    rw [heq (exec_rxBegin_live hd false)]
    rfl
  case sticky =>
    rintro (rfl | ⟨b, rfl⟩)
    · exact heq (exec_rxEnd_failed hp)
    · exact heq (exec_rxByte_failed hp b)
  case work =>
    obtain ⟨c, out, val, hexec, hreplies⟩ := exec_ok_of_fail hp hi
    refine ⟨⟨out, .ok, val⟩, ?_, rfl⟩
    rw [heq hexec, State.answer_replies, hreplies]

end Sys2Proof.Machine
end
